-- ==== Sys2Proof/Word.lean ====
section
/-! DEFINITION. Sys2Proof/Word.lean: the widths of the block's values (00_scope.md R11 to R13). Every value is unsigned. -/

namespace Sys2Proof

/-- A byte of the stream or of the frame buffer (R11: "unsigned 8-bit values"). -/
abbrev Byte := BitVec 8

/-- A 16-bit word: `w[i]`, `sum16`, `stored` (10_state.md R25). -/
abbrev Half := BitVec 16

/-- The 15-bit checksum `chk` (10_state.md R25). -/
abbrev Chk := BitVec 15

/-- The event word `EV[10:0]` (30_encoding.md R60). -/
abbrev EventWord := BitVec 11

/-- A Fixed Frame: exactly 22 bytes, byte 0 received first (00_scope.md R13, 30_encoding.md R63).
The length is in the type, so `Validate` cannot be given another length (41_validator.md R100). -/
abbrev Frame := Vector Byte 22

/-- The bytes at offsets 0 to 19, the input of `Checksum` (42_checksum.md R120). -/
abbrev Block := Vector Byte 20

end Sys2Proof
end

