-- ==== Sys2Proof/Config.lean ====
section
/-! DEFINITION. Sys2Proof/Config.lean: the hardwired constants of 00_scope.md R6, the parameters of R7, and the free
values of 93_implementation_defined.md U23. Nothing here changes at run time (10_state.md R31). -/

namespace Sys2Proof.Config

/-- `START_MARKER`, the start-of-frame byte (R6). -/
def startMarker : Byte := 0xFA

/-- `IDX_LO`, lowest valid rotation index, inclusive (R6). -/
def idxLo : Byte := 0xA0

/-- `IDX_HI`, highest valid rotation index, inclusive (R6). -/
def idxHi : Byte := 0xF9

/-- `FRAME_LEN`, bytes in a Fixed Frame (R6); also the capacity `BUF_CAP` of the frame buffer (R7, D5). -/
abbrev frameLen : Nat := 22

/-- `CSUM_BYTES`, bytes covered by the checksum (R6). -/
abbrev csumBytes : Nat := 20

/-- `CSUM_OFF`, frame offset of the stored checksum (R6). -/
abbrev csumOff : Nat := 20

/-- `IDX_OFF`, frame offset of the rotation index (R6). -/
abbrev idxOff : Nat := 1

/-- `N_WORDS`, 16-bit words folded (R6). -/
abbrev nWords : Nat := 10

/-- `FOLD_MASK`, the 15-bit mask of the final reduction (R6). -/
abbrev foldMask : Nat := 0x7FFF

/-- `FOLD_SHIFT`, the right shift of the final reduction (R6). -/
abbrev foldShift : Nat := 15

/-- `ACC_W`, the width of the checksum accumulator (R7, D8). -/
abbrev accW : Nat := 32

/-- `OUT_LATENCY`, cycles between a flushing MARK and its verdict at the pins (D20, U25); no rule of the event level reads it. -/
abbrev outLatency : Nat := 0

/-- FREE VALUE (log 9): the pin `out_ok` in the cycle numbered by the argument when `out_valid = 0`, which
30_encoding.md R67 leaves unspecified. -/
opaque freeOutOk : Nat → Bool

/-- FREE VALUE (log 9): the pins `out_frame` in the cycle numbered by the argument when `out_valid = 0`, which
30_encoding.md R67 leaves unspecified. -/
opaque freeOutFrame : Nat → BitVec 176

end Sys2Proof.Config
end

