-- ==== Sys2Proof/Syntax.lean ====
section
/-! DEFINITION. Sys2Proof/Syntax.lean: the five input events of 30_encoding.md R60, one constructor for each row of
spec/opcode_table.json. -/

namespace Sys2Proof

/-- An input event: what the block samples in one step (R60). -/
inductive Instr where
  /-- Return to the empty state (70_reset_and_hazards.md R170). -/
  | reset
  /-- No byte this step (40_synchronizer.md R81). -/
  | idle
  /-- The byte source is exhausted (40_synchronizer.md R84). -/
  | eos
  /-- One stream byte equal to `START_MARKER` (40_synchronizer.md R83). -/
  | mark
  /-- One stream byte other than the marker (40_synchronizer.md R82). -/
  | data (b : Byte)
deriving DecidableEq, Repr

end Sys2Proof
end

