-- ==== Sys2Proof/WellFormed.lean ====
section
/-! DEFINITION. Sys2Proof/WellFormed.lean: which terms of `Instr` are events. The one check is R60's `b != 0xFA` of DATA. -/

namespace Sys2Proof

/-- `i` is one of the events of 30_encoding.md R60: `DATA(b)` carries a byte other than `START_MARKER`. -/
def Instr.wellFormed : Instr → Bool
  | .reset => true
  | .idle => true
  | .eos => true
  | .mark => true
  | .data b => b != Config.startMarker

/-- `i` is well formed, as a proposition. -/
abbrev Instr.WellFormed (i : Instr) : Prop := i.wellFormed = true

end Sys2Proof
end

