-- ==== Sys2Proof/Decode.lean ====
section
/-! DEFINITION. Sys2Proof/Decode.lean: the event word `EV11` (30_encoding.md R60, R62, R71): its fields, the decoder, the
opcode table's masks and matches, and the encoder. The decoder is total: no event word is illegal or reserved (R68 (a)). -/

namespace Sys2Proof

/-- `rst = EV[10]` (R60). -/
def evRst (w : EventWord) : Bool := w.getLsbD 10

/-- `valid = EV[9]` (R60). -/
def evValid (w : EventWord) : Bool := w.getLsbD 9

/-- `eos = EV[8]` (R60). -/
def evEos (w : EventWord) : Bool := w.getLsbD 8

/-- `data = EV[7:0]` (R60). -/
def evData (w : EventWord) : Byte := w.extractLsb' 0 8

/-- `EV[10:0] = rst ‖ valid ‖ eos ‖ data[7:0]` (R60, 92_eei_decisions.md D3). -/
def eventWord (rst valid eos : Bool) (data : Byte) : EventWord :=
  BitVec.ofBool rst ++ BitVec.ofBool valid ++ BitVec.ofBool eos ++ data

/-- The decoding of R62, in its priority order. -/
def decode (w : EventWord) : Instr :=
  if evRst w then .reset
  else if !evValid w then .idle
  else if evEos w then .eos
  else if evData w = Config.startMarker then .mark
  else .data (evData w)

/-- The word of an event, the bits R62 ignores set to 0 as in 95_test_vectors.md section 5 (log 11). -/
def encode : Instr → EventWord
  | .reset => eventWord true false false 0
  | .idle => eventWord false false false 0
  | .eos => eventWord false true true 0
  | .mark => eventWord false true false Config.startMarker
  | .data b => eventWord false true false b

/-- The mask of the event's row in R62. -/
def rowMask : Instr → EventWord
  | .reset => 0x400
  | .idle => 0x600
  | .eos => 0x700
  | .mark => 0x7FF
  | .data _ => 0x700

/-- The match value of the event's row in R62. -/
def rowMatch : Instr → EventWord
  | .reset => 0x400
  | .idle => 0x000
  | .eos => 0x300
  | .mark => 0x2FA
  | .data _ => 0x200

/-- `w` selects the row of `i` (R62: `e & mask == match`; the row of DATA takes every encoding of its pattern except MARK's). -/
def selectsRow (i : Instr) (w : EventWord) : Bool :=
  match i with
  | .data _ => (w &&& rowMask i == rowMatch i) && (w != rowMatch .mark)
  | _ => w &&& rowMask i == rowMatch i

/-- What the decoder reads from the low `nbits` bits of `w`, bit 0 least significant. An event word has 11 bits: a number
that does not fit is no event word (log 10). -/
def decodeTableWord (nbits w : Nat) : Option Instr :=
  if w % 2 ^ nbits < 2 ^ 11 then some (decode (BitVec.ofNat 11 (w % 2 ^ nbits))) else none

end Sys2Proof
end

