-- ==== Sys2Proof/Machine/State.lean ====
section
/-! DEFINITION. Sys2Proof/Machine/State.lean: the machine's state (10_state.md R20, R21, R29), the output of a step
(30_encoding.md R66), the causes (60_exceptions.md R142), and the state after reset (10_state.md R32). -/

namespace Sys2Proof.Machine

/-- Why a candidate was judged as it was (60_exceptions.md R142). A label of the model: no pin and no register carries it. -/
inductive Cause where
  /-- Code 0, `None`: all checks pass. -/
  | noCause
  /-- Code 1: the candidate's length at the flush is not 22 (R143). -/
  | lengthMismatch
  /-- Code 2: offset 0 is not `0xFA` (R144). -/
  | badMarker
  /-- Code 3: offset 1 lies outside `[0xA0, 0xF9]` (R145). -/
  | indexOutOfRange
  /-- Code 4: the computed checksum differs from the stored one (R146). -/
  | checksumMismatch
deriving DecidableEq, Repr

/-- The output of a step that emits: the 22 bytes that were judged, and `ok` (30_encoding.md R66). -/
structure Verdict where
  frame : Frame
  ok    : Bool
deriving DecidableEq, Repr

/-- The result of `Validate`: `ok` and the model-level label (41_validator.md R104). -/
structure Judgement where
  ok    : Bool
  cause : Cause
deriving DecidableEq, Repr

/-- The source's state names (10_state.md R23). `flush` and `validating` are parts of a MARK step and never persist. -/
inductive Phase where
  | seekingSync
  | accumulating
  | flush
  | validating
deriving DecidableEq, Repr

/-- What stops a step. Neither arises in a state that satisfies the machine's invariant (00_scope.md R10). -/
inductive Fault where
  /-- Raised by a read of `BUF[k]` when nothing has written it since the buffer was last cleared: the byte holds no value
  (10_state.md R33). Safe: the model stops where the spec gives no value, and no reachable state gets there. -/
  | noValue (k : Nat)
  /-- Raised by a read at an offset of 22 or above, which does not exist (20_memory.md R40). Safe: no event makes one. -/
  | noSuchOffset (k : Nat)
deriving DecidableEq, Repr

/-- Why an event has no meaning. -/
inductive Refusal where
  /-- Raised by `exec`'s arm of an event that has no meaning yet; safe. No arm of this model raises it. -/
  | notModelled (mnemonic : String)
deriving DecidableEq, Repr

/-- The contents of `BUF`: (offset, byte) pairs, offsets strictly rising; an unlisted offset holds no value (log 4). -/
abbrev Memory := List Host.Cell

/-- The state. `len` and `buf` are the machine's (10_state.md R29: "exactly the pair (`BUF`, `LEN`)"); `out` and `cause` are
the output and the label of the latest step, and `input` is what the byte source presents next. -/
structure State where
  /-- `LEN`, legal values 0 to 23 (R21); 24 to 31 cannot be written down (93_implementation_defined.md U22, log 5). -/
  len   : Fin 24
  /-- `BUF[0..21]` (R20). -/
  buf   : Memory
  /-- The output of the latest step (30_encoding.md R66, log 1): written by every step, read by none. -/
  out   : Option Verdict
  /-- The label of the candidate the latest step judged or dropped (60_exceptions.md R142, log 2): written by every step, read by none. -/
  cause : Option Cause
  /-- The event words the byte source presents next, the first one first (00_scope.md R8, log 3). -/
  input : List EventWord
deriving DecidableEq, Repr

/-- The machine right after RESET (10_state.md R32, 70_reset_and_hazards.md R172): `LEN = 0`, no byte of `BUF` holds a value,
nothing emitted, and nothing presented yet. -/
def State.reset : State where
  len   := 0
  buf   := []
  out   := none
  cause := none
  input := []

end Sys2Proof.Machine
end

