-- ==== Sys2Proof/Machine/Flags.lean ====
section
/-! DEFINITION. Sys2Proof/Machine/Flags.lean: the block stores no flag (10_state.md R26). These are the predicates R26 names,
computed where they are used; the causes' codes (60_exceptions.md R142); and the phase, a function of `LEN` (10_state.md R23). -/

namespace Sys2Proof.Machine

/-- `LEN == 0`: the buffer is empty (R26). -/
def State.lenIsZero (s : State) : Bool := s.len == 0

/-- `LEN == 22`: the test of the length filter (R26, 40_synchronizer.md R87). -/
def State.lenIsFull (s : State) : Bool := s.len == 22

/-- `b == 0xFA` (R26). -/
def isMarker (b : Byte) : Bool := b == Config.startMarker

/-- The number of bytes of `BUF` that hold a value, `min(LEN, 22)` (10_state.md R22, R33). -/
def State.stored (s : State) : Nat := min s.len.val Config.frameLen

/-- The phase that persists between steps (10_state.md R23). -/
def State.phase (s : State) : Phase := if s.lenIsZero then .seekingSync else .accumulating

/-- `LEN` as the 5-bit register of 10_state.md R21. -/
def State.lenRegister (s : State) : BitVec 5 := BitVec.ofNat 5 s.len.val

/-- The 3-bit code of a cause (60_exceptions.md R142, 10_state.md R25). -/
def causeCode : Cause → BitVec 3
  | .noCause => 0
  | .lengthMismatch => 1
  | .badMarker => 2
  | .indexOutOfRange => 3
  | .checksumMismatch => 4

end Sys2Proof.Machine
end

