-- ==== Sys2Proof/Machine/Operands.lean ====
section
/-! DEFINITION. Sys2Proof/Machine/Operands.lean: the fields of a Fixed Frame and how its bytes form words (30_encoding.md R63 to
R65, 20_memory.md R41), and the packing of a frame onto 176 bits (R63). All multi-byte values are little-endian. -/

namespace Sys2Proof.Machine

/-- `zext_16(lo) | (zext_16(hi) << 8)`: the byte at the lower offset is the less significant (20_memory.md R41). -/
def littleEndian (lo hi : Byte) : Half := lo.setWidth 16 ||| (hi.setWidth 16 <<< 8)

/-- `marker = f[0]` (R64). -/
def markerOf (f : Frame) : Byte := f[0]

/-- `index = f[1]` (R64). -/
def indexOf (f : Frame) : Byte := f[Config.idxOff]

/-- `speed`, the 16 bits at offset 2, carried and never interpreted (R63). -/
def speedOf (f : Frame) : Half := littleEndian f[2] f[3]

/-- `sample[j]`, the 16 bits at offset `4 + 2j`, carried and never interpreted (R63). -/
def sampleOf (f : Frame) (j : Fin 8) : Half := littleEndian f[4 + 2 * j.val] f[5 + 2 * j.val]

/-- `stored = zext_16(f[20]) | (zext_16(f[21]) << 8)` (R64). -/
def storedOf (f : Frame) : Half := littleEndian f[Config.csumOff] f[Config.csumOff + 1]

/-- `f[0..19]`, what the checksum covers (42_checksum.md R120). -/
def blockOf (f : Frame) : Block := Vector.ofFn fun k : Fin 20 => f[k.val]

/-- `w[i] = zext_16(d[2i]) | (zext_16(d[2i+1]) << 8)` (42_checksum.md R121). -/
def wordAt (d : Block) (i : Fin 10) : Half := littleEndian d[2 * i.val] d[2 * i.val + 1]

/-- A byte sequence as a Fixed Frame, if it is 22 bytes long; any other length has no frame (41_validator.md R100). -/
def toFrame? (c : List Byte) : Option Frame :=
  if h : c.length = 22 then some ⟨c.toArray, by simpa using h⟩ else none

/-- `F[175:0]`, the byte at offset `k` in `F[8k+7 : 8k]` (30_encoding.md R63, format FRAME22). -/
def packFrame (f : Frame) : BitVec 176 :=
  (List.finRange 22).foldl (fun (F : BitVec 176) (k : Fin 22) => F ||| ((f[k.val]).setWidth 176 <<< (8 * k.val))) 0

/-- The frame of `F[175:0]` (R63). -/
def unpackFrame (F : BitVec 176) : Frame := Vector.ofFn fun k : Fin 22 => F.extractLsb' (8 * k.val) 8

/-- The bytes at offsets 0 to 19 packed as in R63 (R72, `c_data[159:0]`), read back as bytes. -/
def unpackBlock (D : BitVec 160) : Block := Vector.ofFn fun k : Fin 20 => D.extractLsb' (8 * k.val) 8

end Sys2Proof.Machine
end

