-- ==== Sys2Proof/Machine/Ops.lean ====
section
/-! DEFINITION. Sys2Proof/Machine/Ops.lean: the named operations over `BUF` and `LEN` (00_scope.md R14, 20_memory.md,
40_synchronizer.md R85), the output of a step (30_encoding.md R66), the rejection primitives, which are what this block has in
place of taking an exception and returning from one (60_exceptions.md R140, R141, R149, R150), and the sampling of an event. -/

namespace Sys2Proof.Machine

/-- The byte listed at offset `k`, if one is. -/
def Memory.read : Memory → Nat → Option Byte
  | [], _ => none
  | (a, b) :: m, k => if a = k then some b else Memory.read m k

/-- `m` with `b` at offset `k`, the offsets kept strictly rising. -/
def Memory.write : Memory → Nat → Byte → Memory
  | [], k, b => [(k, b)]
  | (a, c) :: m, k, b =>
    if k < a then (k, b) :: (a, c) :: m
    else if k = a then (k, b) :: m
    else (a, c) :: Memory.write m k b

/-- The canonical form: offsets strictly rising, and only offsets that exist (20_memory.md R40). -/
abbrev Memory.wf (m : Memory) : Prop := (m.map Prod.fst).Pairwise (· < ·) ∧ ∀ c ∈ m, c.1 < Config.frameLen

/-- `BUF[k]`, `MemRead(k, 1)` (00_scope.md R14). A byte nothing has written since the clear holds no value (10_state.md R33),
and offsets 22 and above do not exist (20_memory.md R40). -/
def readByte (s : State) (k : Nat) : Except Fault Byte :=
  if k < Config.frameLen then
    match Memory.read s.buf k with
    | some b => .ok b
    | none => .error (.noValue k)
  else .error (.noSuchOffset k)

/-- `MemRead(k, 2)`, little-endian (00_scope.md R14, 20_memory.md R41). -/
def readHalf (s : State) (k : Nat) : Except Fault Half :=
  match readByte s k with
  | .error e => .error e
  | .ok lo =>
    match readByte s (k + 1) with
    | .error e => .error e
    | .ok hi => .ok (littleEndian lo hi)

/-- `[BUF[0], ..., BUF[n-1]]`, read in increasing order of the offset. -/
def readFirst (s : State) : (n : Nat) → Except Fault (Vector Byte n)
  | 0 => .ok #v[]
  | n + 1 =>
    match readFirst s n with
    | .error e => .error e
    | .ok v =>
      match readByte s n with
      | .error e => .error e
      | .ok b => .ok (v.push b)

/-- One snapshot of all 22 bytes (40_synchronizer.md R86 line 2, 20_memory.md R43). -/
def snapshot (s : State) : Except Fault Frame := readFirst s Config.frameLen

/-- `MemWrite(k, 1, b)`, `BUF[k] <- b` (00_scope.md R14). -/
def writeByte (s : State) (k : Nat) (b : Byte) : State := { s with buf := Memory.write s.buf k b }

/-- Where APPEND stores its byte, if it stores it: at `LEN`, while `LEN <= 21` (40_synchronizer.md R85, 20_memory.md R46). -/
def appendOffset (s : State) : Option Nat := if s.len.val ≤ 21 then some s.len.val else none

/-- `LEN + 1`, saturating at 23 (10_state.md R30). -/
def lenSucc (n : Fin 24) : Fin 24 := if h : n.val < 23 then ⟨n.val + 1, by omega⟩ else n

/-- `APPEND(b)` (40_synchronizer.md R85): stored while `LEN <= 21`, counted only at 22, without effect at 23. -/
def append (b : Byte) (s : State) : State :=
  { s with
    len := lenSucc s.len
    buf := match appendOffset s with
      | some k => (writeByte s k b).buf
      | none => s.buf }

/-- The clear: `LEN <- 0` (40_synchronizer.md R86 line 7). `BUF` receives no byte, and its bytes then hold no value
(10_state.md R33, log 4). -/
def clear (s : State) : State := { s with len := 0, buf := [] }

/-- A step that emits nothing and judges nothing has no output and no label (30_encoding.md R66). -/
def silent (s : State) : State := { s with out := none, cause := none }

/-- `emit Verdict(f, ok)` (00_scope.md R14, 41_validator.md R105): the very 22 bytes that were judged, valid or not. -/
def emitVerdict (f : Frame) (j : Judgement) (s : State) : State :=
  { s with out := some ⟨f, j.ok⟩, cause := some j.cause }

/-- Validation passes: `ok = 1`, cause `None` (41_validator.md R104 line 4). -/
def accept : Judgement := ⟨true, .noCause⟩

/-- `raise Reject(cause)` (60_exceptions.md R140): validation ends with `ok = 0` and the label. Nothing is saved, no mode changes and
the step goes on (R149), so there is nothing to return from (R150). -/
def raiseReject (c : Cause) : Judgement := ⟨false, c⟩

/-- `drop(cause)` (60_exceptions.md R141): no output, only the label; the step goes on. -/
def dropCandidate (c : Cause) (s : State) : State := { s with out := none, cause := some c }

/-- A step's outcome: the next state, or the fault an access met. -/
def answer : Except Fault State → Host.Outcome State Fault Refusal
  | .ok s => .next s
  | .error e => .fault e

/-- The candidate view `cand = [BUF[0], ..., BUF[min(LEN,22) - 1]]` (10_state.md R22). -/
def State.candidate (s : State) : List Byte := (List.range s.stored).filterMap (Memory.read s.buf)

/-- The event sampled in this step and the state it is executed in: the front of what the byte source presents is taken; where it
presents nothing, `valid = 0`, which is IDLE (40_synchronizer.md R81, log 3). -/
def fetchEvent (s : State) : Instr × State :=
  match s.input with
  | [] => (.idle, s)
  | w :: rest => (decode w, { s with input := rest })

/-- `w` presented ahead of everything else (log 7). -/
def presentEvent (s : State) (w : EventWord) : State := { s with input := w :: s.input }

end Sys2Proof.Machine
end

