-- ==== Sys2Proof/Machine/Reset.lean ====
section
/-! DEFINITION. Sys2Proof/Machine/Reset.lean: the meaning of RESET (70_reset_and_hazards.md R170). -/

namespace Sys2Proof.Machine

/-- `RESET` (R170): `LEN <- 0`; a candidate under assembly is discarded unjudged, and nothing is emitted. -/
def execReset (s : State) : Host.Outcome State Fault Refusal := .next (clear (silent s))

end Sys2Proof.Machine
end

