-- ==== Sys2Proof/Machine/Checksum.lean ====
section
/-! DEFINITION. Sys2Proof/Machine/Checksum.lean: the checksum unit (42_checksum.md). The accumulator's width `ACC_W` is an open
parameter (92_eei_decisions.md D8), so the fold and the reduction are written over it; the machine's own width is 32. -/

namespace Sys2Proof.Machine

/-- `FOLD(w)`: `CS <- (CS << 1) + zext(w)`, a shift and not a rotate (R122). -/
def foldWord {n : Nat} (cs : BitVec n) (w : Half) : BitVec n := (cs <<< 1) + w.setWidth n

/-- `CS` after the words `w[0..9]` were folded in increasing order, from 0 (R123). -/
def accumulateOf (n : Nat) (d : Block) : BitVec n :=
  (List.finRange 10).foldl (fun cs i => foldWord cs (wordAt d i)) 0

/-- `sum16 = (CS & 0x7FFF) + (CS >> 15)` (R125). -/
def sum16Of {n : Nat} (cs : BitVec n) : Half :=
  (cs &&& BitVec.ofNat n Config.foldMask).setWidth 16 + (cs >>> Config.foldShift).setWidth 16

/-- `REDUCE`: `chk = sum16 & 0x7FFF`; the carry of the add is discarded (R125, R126). -/
def reduce {n : Nat} (cs : BitVec n) : Chk := (sum16Of cs &&& BitVec.ofNat 16 Config.foldMask).setWidth 15

/-- The checksum with an accumulator of `n` bits (R127, D8). -/
def checksumOf (n : Nat) (d : Block) : Chk := reduce (accumulateOf n d)

/-- `Checksum(d)` (R127). -/
def checksum (d : Block) : Chk := checksumOf Config.accW d

/-- The checksum unit on its own: `c_data[159:0]` in, `c_chk[14:0]` out (30_encoding.md R72). -/
def checksumBlock (cData : BitVec 160) : Chk := checksum (unpackBlock cData)

end Sys2Proof.Machine
end

