-- ==== Sys2Proof/Machine/Validator.lean ====
section
/-! DEFINITION. Sys2Proof/Machine/Validator.lean: the Frame Validator (41_validator.md), a pure function of the 22 bytes. -/

namespace Sys2Proof.Machine

/-- Step 1, the marker check (R101). -/
def markerOk (f : Frame) : Bool := isMarker (markerOf f)

/-- Step 2, the index check: unsigned, both bounds inclusive (R102). -/
def indexOk (f : Frame) : Bool := decide (Config.idxLo ≤ indexOf f) && decide (indexOf f ≤ Config.idxHi)

/-- Step 3, the checksum check: all 16 bits of `stored` take part (R103, R108). -/
def checksumOk (f : Frame) : Bool := (checksum (blockOf f)).setWidth 16 == storedOf f

/-- `Validate(f)` (R104): the three checks in order, the first failure decides the cause (60_exceptions.md R147). -/
def validate (f : Frame) : Judgement :=
  if !markerOk f then raiseReject .badMarker
  else if !indexOk f then raiseReject .indexOutOfRange
  else if !checksumOk f then raiseReject .checksumMismatch
  else accept

/-- The Validator on its own: `v_frame[175:0]` in, `v_ok` out (30_encoding.md R72). -/
def validateBlock (vFrame : BitVec 176) : Bool := (validate (unpackFrame vFrame)).ok

end Sys2Proof.Machine
end

