-- ==== Sys2Proof/Machine/Synchronizer.lean ====
section
/-! DEFINITION. Sys2Proof/Machine/Synchronizer.lean: FLUSH with the length filter, and the meanings of IDLE, DATA, MARK and EOS
(40_synchronizer.md). -/

namespace Sys2Proof.Machine

/-- `FLUSH` (R86): a candidate of exactly 22 bytes is judged and reported, any other is dropped (the length filter, R87); then
the buffer is cleared, whatever the length and the verdict. -/
def flush (s : State) : Except Fault State :=
  if s.lenIsFull then
    match snapshot s with
    | .error e => .error e
    | .ok f => .ok (clear (emitVerdict f (validate f) s))
  else .ok (clear (dropCandidate .lengthMismatch s))

/-- The first line of MARK (R83): flush a buffer that is not empty, as it stood before the step (20_memory.md R48). -/
def flushIfNonEmpty (s : State) : Except Fault State :=
  if s.lenIsZero then .ok (silent s) else flush s

/-- `IDLE` (R81): nothing changes and nothing is emitted. -/
def execIdle (s : State) : Host.Outcome State Fault Refusal := .next (silent s)

/-- `DATA(b)` (R82): append, before the first marker too; nothing is emitted. -/
def execData (b : Byte) (s : State) : Host.Outcome State Fault Refusal := .next (append b (silent s))

/-- `MARK` (R83): flush if the buffer is not empty, then append the marker as byte 0 of the next candidate. -/
def execMark (s : State) : Host.Outcome State Fault Refusal :=
  answer ((flushIfNonEmpty s).map (append Config.startMarker))

/-- `EOS` (R84): the trailing candidate is discarded unjudged, with no cause (60_exceptions.md R154). -/
def execEos (s : State) : Host.Outcome State Fault Refusal := .next (clear (silent s))

end Sys2Proof.Machine
end

