-- ==== Sys2Proof/Machine/Dispatch.lean ====
section
/-! DEFINITION. Sys2Proof/Machine/Dispatch.lean: one arm per event. -/

namespace Sys2Proof.Machine

def exec (i : Instr) (s : State) : Host.Outcome State Fault Refusal :=
  match i with
  | .reset => Sys2Proof.Machine.execReset s
  | .idle => Sys2Proof.Machine.execIdle s
  | .eos => Sys2Proof.Machine.execEos s
  | .mark => Sys2Proof.Machine.execMark s
  | .data b => Sys2Proof.Machine.execData b s

end Sys2Proof.Machine
end

