-- ==== Sys2Proof/Machine/Step.lean ====
section
/-! DEFINITION. Sys2Proof/Machine/Step.lean: one step samples one event and executes it (00_scope.md R9). -/

namespace Sys2Proof.Machine

/-- One step: the event presented now, executed (R9). -/
def step (s : State) : Host.Outcome State Fault Refusal :=
  exec (fetchEvent s).1 (fetchEvent s).2

/-- `s` with the event word of the low `nbits` bits of `w` presented as the next event (log 7). -/
def State.withFetchWord (s : State) (nbits w : Nat) : State :=
  presentEvent s (BitVec.ofNat 11 (w % 2 ^ nbits))

end Sys2Proof.Machine
end

