-- ==== Sys2Proof/Machine/Stream.lean ====
section
/-! DEFINITION. Sys2Proof/Machine/Stream.lean: runs of events (00_scope.md R9), streams and traces (30_encoding.md R70), and what the
spec says a whole stream amounts to (40_synchronizer.md R88), written over the bytes of the stream alone. -/

namespace Sys2Proof.Machine

/-- The event of a stream byte: MARK if it is the marker, else DATA (30_encoding.md R70 (a)). -/
def eventOfByte (b : Byte) : Instr := if isMarker b then .mark else .data b

/-- The stream run of R9: the fold of the step over an event sequence, with the output of every step in order. It is `none`
if a step stops. -/
def runEvents : List Instr → State → Option (State × List (Option Verdict))
  | [], s => some (s, [])
  | i :: is, s =>
    match exec i s with
    | .next t => (runEvents is t).map fun r => (r.1, t.out :: r.2)
    | .fault _ => none
    | .refused _ => none

/-- The verdicts among the outputs of a run, in stream order (40_synchronizer.md R91 (d)). -/
def verdictsOf (os : List (Option Verdict)) : List Verdict := os.filterMap id

/-- The events after the last RESET or EOS. -/
def sinceClear : List Instr → List Instr
  | [] => []
  | i :: is => if .reset ∈ is ∨ .eos ∈ is then sinceClear is else if i = .reset ∨ i = .eos then is else i :: is

/-- The transient phases a step passes through (10_state.md R23, the column "Inside the step" of 40_synchronizer.md R90): a MARK that
finds bytes collected runs `FLUSH`, and within it `VALIDATING` if exactly 22 are. -/
def phasesInside (i : Instr) (s : State) : List Phase :=
  match i with
  | .reset => []
  | .idle => []
  | .eos => []
  | .mark => if s.lenIsZero then [] else if s.lenIsFull then [.flush, .validating] else [.flush]
  | .data _ => []

/-- A row of a trace (30_encoding.md R70 (c)): `dropped` is the length of the candidate the length filter discarded. -/
structure TraceRow where
  event     : Instr
  lenBefore : Nat
  lenAfter  : Nat
  out       : Option Verdict
  cause     : Option Cause
  dropped   : Option Nat
deriving DecidableEq, Repr

/-- The trace of an event sequence (30_encoding.md R70 (c)), up to the first step that stops. -/
def traceEvents : List Instr → State → List TraceRow
  | [], _ => []
  | i :: is, s =>
    match exec i s with
    | .next t =>
      { event := i, lenBefore := s.len.val, lenAfter := t.len.val, out := t.out, cause := t.cause,
        dropped := if t.cause = some .lengthMismatch then some s.len.val else none } :: traceEvents is t
    | .fault _ => []
    | .refused _ => []

/-- `FRAME(idx; b2 .. b19)` (30_encoding.md R70 (b)): the marker, the index, the payload, and the checksum of the first 20 bytes,
low byte first. -/
def frameLiteral (idx : Byte) (payload : Vector Byte 18) : Frame :=
  let d : Block := #v[Config.startMarker, idx] ++ payload
  d ++ #v[(checksum d).setWidth 8, (checksum d >>> 8).setWidth 8]

/-- `s[a .. b-1]`. -/
def slice (s : List Byte) (a b : Nat) : List Byte := (s.drop a).take (b - a)

/-- The positions `p_1 < ... < p_m` of the stream at which a marker stands (40_synchronizer.md R88). -/
def markerPositions (s : List Byte) : List Nat :=
  (List.range s.length).filter fun p => s[p]? == some Config.startMarker

/-- The leading segment, if bytes precede the first marker (R88 (b)). -/
def leadingSegment (s : List Byte) : List (List Byte) :=
  match (markerPositions s).head? with
  | some p => if 0 < p then [s.take p] else []
  | none => []

/-- The flushed candidates in order: the leading segment, then the segments between consecutive markers; the trailing segment is
not among them (R88 (b), (c)). -/
def candidates (s : List Byte) : List (List Byte) :=
  leadingSegment s ++ List.zipWith (slice s) (markerPositions s) (markerPositions s).tail

/-- `Verdict(c, Validate(c))` for a candidate of 22 bytes, nothing for any other (R88 (d)). -/
def verdictOf (c : List Byte) : Option Verdict := (toFrame? c).map fun f => ⟨f, (validate f).ok⟩

/-- Where the candidate under assembly at position `k` of the stream began: at the last marker before `k`, or at the start. -/
def candidateStart (s : List Byte) (k : Nat) : Nat :=
  (((List.range k).filter fun p => s[p]? == some Config.startMarker).getLast?).getD 0

/-- What the step that consumes `s[k]` emits (R88 (d)): at a marker, the verdict of the candidate that ends there. -/
def outputAt (s : List Byte) (k : Nat) : Option Verdict :=
  if s[k]? = some Config.startMarker then verdictOf (slice s (candidateStart s k) k) else none

end Sys2Proof.Machine
end

