-- ==== Sys2Proof/Machine/Growable.lean ====
section
/-! DEFINITION. Sys2Proof/Machine/Growable.lean: the source's own algorithm over a buffer that grows without bound
(40_synchronizer.md R80), which 10_state.md R22 says the pair (`BUF`, `LEN`) is indistinguishable from. -/

namespace Sys2Proof.Machine

/-- The source's loop body (R80): flush at a marker that finds bytes collected, then append; RESET and EOS empty the buffer. -/
def growableStep (g : List Byte) : Instr → List Byte × Option Verdict
  | .reset => ([], none)
  | .idle => (g, none)
  | .eos => ([], none)
  | .mark => ([Config.startMarker], if g = [] then none else verdictOf g)
  | .data b => (g ++ [b], none)

/-- The source's algorithm over an event sequence, with every step's output. -/
def growableRun : List Instr → List Byte → List Byte × List (Option Verdict)
  | [], g => (g, [])
  | i :: is, g =>
    let r := growableRun is (growableStep g i).1
    (r.1, (growableStep g i).2 :: r.2)

/-- `G` and (`BUF`, `LEN`) hold the same candidate (10_state.md R22): the same length up to 22, "more than 22" as 23, and the same
first `min(len(G), 22)` bytes. -/
def Tracks (g : List Byte) (s : State) : Prop :=
  s.len.val = min g.length 23 ∧ ∀ k, k < min g.length 22 → Memory.read s.buf k = g[k]?

/-- (`BUF`, `LEN`) hold the candidate that the stream bytes `bs` leave under assembly: those since the last marker, or all of them
(40_synchronizer.md R88). -/
def TracksStream (bs : List Byte) (s : State) : Prop := Tracks (slice bs (candidateStart bs bs.length) bs.length) s

end Sys2Proof.Machine
end

