-- ==== Sys2Proof/Machine/Pins.lean ====
section
/-! DEFINITION. Sys2Proof/Machine/Pins.lean: the pin-level binding (30_encoding.md R61, R67), the spec's own, over the event level. -/

namespace Sys2Proof.Machine

/-- The inputs sampled on a rising clock edge (R61). -/
structure InPins where
  rst     : Bool
  inValid : Bool
  inEos   : Bool
  inData  : Byte
deriving DecidableEq, Repr

/-- The outputs presented during a step (R61, R67). -/
structure OutPins where
  inReady  : Bool
  outValid : Bool
  outOk    : Bool
  outFrame : BitVec 176
deriving DecidableEq, Repr

/-- The event word of the pins: `EV[10] = rst`, `EV[9] = in_valid`, `EV[8] = in_eos`, `EV[7:0] = in_data` (R61). -/
def pinWord (p : InPins) : EventWord := eventWord p.rst p.inValid p.inEos p.inData

/-- The output pins in the cycle numbered `n`, for that step's output (R67). `in_ready` is constant 1 (R61). While `out_valid` is 0 the
other two are free values (log 9). -/
def outPins (n : Nat) (o : Option Verdict) : OutPins :=
  match o with
  | some v => { inReady := true, outValid := true, outOk := v.ok, outFrame := packFrame v.frame }
  | none => { inReady := true, outValid := false, outOk := Config.freeOutOk n, outFrame := Config.freeOutFrame n }

/-- The outputs as they reach the pins `OUT_LATENCY` cycles later (92_eei_decisions.md D20), in the same order. -/
def delayed (latency : Nat) (os : List (Option Verdict)) : List (Option Verdict) := List.replicate latency none ++ os

/-- The output pins over a run of clock edges from `s`, cycle by cycle; `none` if a step stops. -/
def runPins (ps : List InPins) (s : State) : Option (List OutPins) :=
  (runEvents (ps.map fun p => decode (pinWord p)) s).map fun r =>
    (delayed Config.outLatency r.2).mapIdx outPins

end Sys2Proof.Machine
end

