-- ==== Sys2Proof/Safety.lean ====
section
/-! DEFINITION. Sys2Proof/Safety.lean: the invariants of the reachable states (10_state.md R28, R33) in the terms the claims use. -/

namespace Sys2Proof.Machine

/-- Exactly the bytes `BUF[0 .. min(LEN,22) - 1]` hold a value (10_state.md R20, R33). -/
abbrev State.Filled (s : State) : Prop := s.buf.map Prod.fst = List.range s.stored

/-- A marker byte can only stand at offset 0 (10_state.md R28 (I2)). -/
abbrev State.MarkerOnlyFirst (s : State) : Prop := ∀ c ∈ s.buf, 1 ≤ c.1 → c.2 ≠ Config.startMarker

/-- The invariant of every reachable state (10_state.md R28). -/
abbrev State.Inv (s : State) : Prop := s.Filled ∧ s.MarkerOnlyFirst

/-- The machine's persistent state, (`BUF`, `LEN`), is the same in both (10_state.md R29). -/
abbrev State.SameCore (s t : State) : Prop := s.len = t.len ∧ s.buf = t.buf

end Sys2Proof.Machine
end

