-- ==== Sys2Proof/Certificates/Slice0/Obligations.lean ====
section
/-! DEFINITION. Sys2Proof/Certificates/Slice0/Obligations.lean: the statements for the provers, each from a numbered rule of spec/. -/

open Sys2Proof Sys2Proof.Machine

/-! ### The event word -/

/-- 30_encoding.md R62: the decoding in its priority order, the same as masks and matches over the 11 bits, the ignored bits without
effect, and the number of encodings of each event. -/
def Obligations.DecodeFollowsThePriorityList : Prop :=
  (∀ w : EventWord,
    (w.getLsbD 10 = true → decode w = .reset) ∧
    (w.getLsbD 10 = false → w.getLsbD 9 = false → decode w = .idle) ∧
    (w.getLsbD 10 = false → w.getLsbD 9 = true → w.getLsbD 8 = true → decode w = .eos) ∧
    (w.getLsbD 10 = false → w.getLsbD 9 = true → w.getLsbD 8 = false → w.extractLsb' 0 8 = 0xFA#8 → decode w = .mark) ∧
    (w.getLsbD 10 = false → w.getLsbD 9 = true → w.getLsbD 8 = false → w.extractLsb' 0 8 ≠ 0xFA#8 →
      decode w = .data (w.extractLsb' 0 8))) ∧
  (∀ w : EventWord,
    (decode w = .reset ↔ w &&& 0x400#11 = 0x400#11) ∧
    (decode w = .idle ↔ w &&& 0x600#11 = 0x000#11) ∧
    (decode w = .eos ↔ w &&& 0x700#11 = 0x300#11) ∧
    (decode w = .mark ↔ w &&& 0x7FF#11 = 0x2FA#11) ∧
    ((∃ b, decode w = .data b) ↔ w &&& 0x700#11 = 0x200#11 ∧ w ≠ 0x2FA#11)) ∧
  ((List.range 2048).countP (fun n => decode (BitVec.ofNat 11 n) == .reset) = 1024 ∧
    (List.range 2048).countP (fun n => decode (BitVec.ofNat 11 n) == .idle) = 512 ∧
    (List.range 2048).countP (fun n => decode (BitVec.ofNat 11 n) == .eos) = 256 ∧
    (List.range 2048).countP (fun n => decode (BitVec.ofNat 11 n) == .mark) = 1 ∧
    (List.range 2048).countP (fun n => decode (BitVec.ofNat 11 n) == .data (evData (BitVec.ofNat 11 n))) = 255)

/-- 30_encoding.md section 1: decoding the encoding of an event gives it back, for DATA with every byte it can carry and for every value
of the bits the decoder ignores; and the decoder gives events only. The zeros `encode` puts in ignored bits are the model's choice
(log 11). -/
def Obligations.DecodeOfEncodeIsTheEvent : Prop :=
  (∀ i : Instr, i.WellFormed → decode (encode i) = i) ∧
  (∀ (v e : Bool) (d : Byte), decode (eventWord true v e d) = .reset) ∧
  (∀ (e : Bool) (d : Byte), decode (eventWord false false e d) = .idle) ∧
  (∀ d : Byte, decode (eventWord false true true d) = .eos) ∧
  (∀ d : Byte, decode (eventWord false true false d) = if d = 0xFA#8 then .mark else .data d) ∧
  (∀ w : EventWord, (decode w).WellFormed)

/-- A few words read: 95_test_vectors.md section 5 ("`400` RESET, `000` IDLE, `300` EOS, `2FA` MARK, `2xx` DATA(`xx`)"), and
`7FF`, `1FF` and `3FA`, whose ignored bits are set, by the decoding of 30_encoding.md section 1 (R62; 95_test_vectors.md section 4,
E8). -/
def Obligations.SampleWordsDecode : Prop :=
  decode 0x400 = .reset ∧ decode 0x7FF = .reset ∧ decode 0x000 = .idle ∧ decode 0x1FF = .idle ∧
  decode 0x300 = .eos ∧ decode 0x3FA = .eos ∧ decode 0x2FA = .mark ∧ decode 0x2A0 = .data 0xA0 ∧ decode 0x2FB = .data 0xFB

/-- 30_encoding.md section 1 (the pins of R61 are the bits of the event word): the event of the pins, and `in_ready` constant 1. -/
def Obligations.PinsSelectTheEvent : Prop :=
  (∀ p : InPins, decode (pinWord p) =
    if p.rst then .reset else if p.inValid = false then .idle else if p.inEos then .eos
    else if p.inData = 0xFA#8 then .mark else .data p.inData) ∧
  (∀ n o, (outPins n o).inReady = true)

/-! ### A step -/

/-- 00_scope.md section 4: a step executes the event that is presented, whose word is at the front of `input`, in the state that has it
taken; and what `presentEvent` puts there is that event. -/
def Obligations.StepRunsTheDecodedEvent : Prop :=
  (∀ (s : State) (w : EventWord) (rest : List EventWord), s.input = w :: rest →
    (decode w).WellFormed ∧ step s = exec (decode w) { s with input := rest }) ∧
  (∀ (s : State) (w : EventWord), step (presentEvent s w) = exec (decode w) s)

/-- The model's choice, log 3: where the byte source presents nothing, the step is IDLE. -/
def Obligations.StepWithNothingPresentedIsIdle : Prop :=
  ∀ s : State, s.input = [] → step s = exec .idle s

/-- 00_scope.md section 4 (a stream run is the fold of the step over an event sequence): as many steps of the machine as words were
presented end where the run of their events ends. -/
def Obligations.StepsOverPresentedWordsAreTheEventRun : Prop :=
  ∀ (ws : List EventWord) (s t : State) (os : List (Option Verdict)),
    runEvents (ws.map decode) { s with input := [] } = some (t, os) →
    Host.Core.run Sys2Proof.core ws.length { s with input := ws } = .next t

/-- 10_state.md R30: what each event does to `LEN`. -/
def Obligations.LenAfterEachEvent : Prop :=
  (∀ s t, exec .reset s = .next t → t.len.val = 0) ∧
  (∀ s t, exec .idle s = .next t → t.len = s.len) ∧
  (∀ b s t, exec (.data b) s = .next t → t.len.val = if s.len.val ≤ 22 then s.len.val + 1 else 23) ∧
  (∀ s t, exec .mark s = .next t → t.len.val = 1) ∧
  (∀ s t, exec .eos s = .next t → t.len.val = 0)

/-- 40_synchronizer.md section 4 (the transition table of R90): the phase after each event, and the phases inside the step. -/
def Obligations.PhaseTransitions : Prop :=
  (∀ s t, exec .reset s = .next t → t.phase = .seekingSync) ∧
  (∀ s t, exec .eos s = .next t → t.phase = .seekingSync) ∧
  (∀ s t, exec .idle s = .next t → t.phase = s.phase) ∧
  (∀ b s t, exec (.data b) s = .next t → t.phase = .accumulating) ∧
  (∀ s t, exec .mark s = .next t → t.phase = .accumulating) ∧
  (∀ s t, exec .mark s = .next t → (.validating ∈ phasesInside .mark s ↔ t.out.isSome)) ∧
  (∀ s t, exec .mark s = .next t → (.flush ∈ phasesInside .mark s ↔ t.cause.isSome))

/-! ### RESET, EOS, IDLE -/

/-- 70_reset_and_hazards.md R172: the initial state, and that the first byte after it starts the first candidate. -/
def Obligations.InitialStateIsEmpty : Prop :=
  State.reset.len.val = 0 ∧ State.reset.phase = .seekingSync ∧ State.reset.out = none ∧
  (∀ b, ∃ t, exec (.data b) State.reset = .next t ∧ t.candidate = [b]) ∧
  (∃ t, exec .mark State.reset = .next t ∧ t.candidate = [0xFA#8])

/-- 70_reset_and_hazards.md R170: RESET, its encoding, and its result from every state; RESET again changes nothing more, and RESET of an
empty buffer changes nothing. -/
def Obligations.ResetEmptiesTheBuffer : Prop :=
  (∀ w : EventWord, decode w = .reset ↔ w &&& 0x400#11 = 0x400#11) ∧
  (∀ s : State, ∃ t, exec .reset s = .next t ∧ t.len.val = 0 ∧ t.out = none ∧ t.cause = none ∧ t.input = s.input ∧
    State.SameCore t State.reset ∧ exec .reset t = .next t ∧
    (s.Filled → s.len.val = 0 → State.SameCore s t))

/-- 40_synchronizer.md R84: EOS, its encoding, and that from every state, a complete frame in the buffer among them, it leaves the reset state and emits
nothing; EOS of an empty buffer changes nothing. -/
def Obligations.EosDiscardsTheCandidate : Prop :=
  (∀ w : EventWord, decode w = .eos ↔ w &&& 0x700#11 = 0x300#11) ∧
  (∀ s : State, ∃ t, exec .eos s = .next t ∧ t.len.val = 0 ∧ t.out = none ∧ t.cause = none ∧ t.input = s.input ∧
    State.SameCore t State.reset ∧
    (s.Filled → s.len.val = 0 → State.SameCore s t))

/-- 70_reset_and_hazards.md R173: EOS and RESET leave the same state, the reset state, and RESET wins where both are asserted; so a stream
after EOS runs as one from reset does. -/
def Obligations.EosAndResetLeaveTheSameState : Prop :=
  (∀ s : State, exec .eos s = exec .reset s) ∧
  (∀ s : State, exec .eos s = .next { State.reset with input := s.input }) ∧
  (∀ d : Byte, decode (eventWord true true true d) = .reset) ∧
  (∀ (s : State) (is : List Instr), runEvents (.eos :: is) s =
    (runEvents is { State.reset with input := s.input }).map fun r => (r.1, none :: r.2))

/-- 40_synchronizer.md R81: IDLE, its encoding, and that it changes nothing and emits nothing, any number of times. -/
def Obligations.IdleChangesNothing : Prop :=
  (∀ w : EventWord, decode w = .idle ↔ w &&& 0x600#11 = 0x000#11) ∧
  (∀ s : State, exec .idle s = .next { s with out := none, cause := none }) ∧
  (∀ (n : Nat) (s : State), ∃ t, runEvents (List.replicate n .idle) s = some (t, List.replicate n none) ∧ State.SameCore s t) ∧
  (∀ (is js : List Instr) (n : Nat) (s t : State) (os : List (Option Verdict)), runEvents (is ++ js) s = some (t, os) →
    ∃ t' os', runEvents (is ++ List.replicate n .idle ++ js) s = some (t', os') ∧ State.SameCore t t' ∧
      verdictsOf os' = verdictsOf os)

/-- 70_reset_and_hazards.md section 3 (IDLE steps are never required and never harmful): taking every IDLE out of an event sequence
changes neither the final `BUF` and `LEN` nor the verdicts. -/
def Obligations.IdleStepsAreInvisible : Prop :=
  ∀ (is : List Instr) (s t : State) (os : List (Option Verdict)), runEvents is s = some (t, os) →
    ∃ t' os', runEvents (is.filter (· != .idle)) s = some (t', os') ∧ State.SameCore t t' ∧ verdictsOf os' = verdictsOf os

/-! ### APPEND and DATA -/

/-- 40_synchronizer.md R85: APPEND stores at `LEN` up to 21, only counts at 22, and does nothing at 23. -/
def Obligations.AppendStoresCountsSaturates : Prop :=
  ∀ (b : Byte) (s : State),
    (s.len.val ≤ 21 → (append b s).len.val = s.len.val + 1 ∧ readByte (append b s) s.len.val = .ok b ∧
      (∀ k, k ≠ s.len.val → readByte (append b s) k = readByte s k)) ∧
    (s.len.val = 22 → (append b s).len.val = 23 ∧ (append b s).buf = s.buf) ∧
    (s.len.val = 23 → append b s = s) ∧
    (append b s).out = s.out ∧ (append b s).cause = s.cause ∧ (append b s).input = s.input

/-- 40_synchronizer.md R82: DATA, its encoding, and that it appends its byte and emits nothing, whatever `LEN` is. -/
def Obligations.DataAppendsItsByte : Prop :=
  (∀ (w : EventWord) (b : Byte), decode w = .data b ↔ w &&& 0x700#11 = 0x200#11 ∧ w.extractLsb' 0 8 = b ∧ b ≠ 0xFA#8) ∧
  (∀ (b : Byte) (s : State), ∃ t, exec (.data b) s = .next t ∧ State.SameCore t (append b s) ∧ t.out = none ∧ t.cause = none ∧
    t.input = s.input ∧ t.phase = .accumulating)

/-- 20_memory.md section 3 (writes are append-only): DATA leaves every byte alone but the one at the offset it stores to, and stores
nothing once 22 bytes are held. -/
def Obligations.DataFrame : Prop :=
  ∀ (b : Byte) (s t : State), exec (.data b) s = .next t →
    t.input = s.input ∧
    (∀ a, appendOffset s = some a → ∀ k, k ≠ a → readByte t k = readByte s k) ∧
    (appendOffset s = none → ∀ k, readByte t k = readByte s k) ∧
    (22 ≤ s.len.val ↔ appendOffset s = none)

/-- 40_synchronizer.md sections 2 and 3: RESET, EOS and MARK leave what is presented next alone. After RESET, EOS and a MARK that
flushed, no byte of `BUF` holds a value (the clear is 10_state.md R33, log 4) but the marker that MARK stores at offset 0; a MARK that
finds `LEN` 0 leaves every other offset as it was. -/
def Obligations.ClearingEventsFrame : Prop :=
  (∀ s t, exec .reset s = .next t → t.input = s.input ∧ ∀ k b, readByte t k ≠ .ok b) ∧
  (∀ s t, exec .eos s = .next t → t.input = s.input ∧ ∀ k b, readByte t k ≠ .ok b) ∧
  (∀ s t, exec .mark s = .next t → t.input = s.input ∧ readByte t 0 = .ok 0xFA#8 ∧
    (s.len.val ≠ 0 → ∀ k b, k ≠ 0 → readByte t k ≠ .ok b) ∧
    (s.len.val = 0 → ∀ k, k ≠ 0 → readByte t k = readByte s k))

/-! ### MARK, FLUSH and the length filter -/

/-- 40_synchronizer.md R86: FLUSH judges and reports a candidate of 22 bytes, drops any other, and clears whatever the verdict; MARK runs
it only where `LEN` is not 0. -/
def Obligations.FlushJudgesOrDropsThenClears : Prop :=
  (∀ (s : State) (f : Frame), s.len.val = 22 → snapshot s = .ok f →
    ∃ t, flush s = .ok t ∧ t.out = some ⟨f, (validate f).ok⟩ ∧ t.cause = some (validate f).cause ∧
      t.len.val = 0 ∧ t.input = s.input ∧ ∀ k b, readByte t k ≠ .ok b) ∧
  (∀ s : State, s.len.val ≠ 22 →
    ∃ t, flush s = .ok t ∧ t.out = none ∧ t.cause = some .lengthMismatch ∧
      t.len.val = 0 ∧ t.input = s.input ∧ ∀ k b, readByte t k ≠ .ok b) ∧
  (∀ s : State, flushIfNonEmpty s = if s.len.val = 0 then .ok { s with out := none, cause := none } else flush s) ∧
  (∀ (s : State) (f : Frame), snapshot s = .ok f → ∀ k : Fin 22, readByte s k.val = .ok f[k.val])

/-- 40_synchronizer.md R83: MARK, its encoding, and its result: the old candidate is judged as it stood before the step if it has 22
bytes, else nothing is emitted; then `LEN` is 1 and `BUF[0]` is the marker. -/
def Obligations.MarkFlushesThenStartsAnew : Prop :=
  (∀ w : EventWord, decode w = .mark ↔ w &&& 0x7FF#11 = 0x2FA#11) ∧
  (∀ s : State, s.len.val = 0 → ∃ t, exec .mark s = .next t ∧ t.out = none ∧ t.cause = none ∧
    t.len.val = 1 ∧ readByte t 0 = .ok 0xFA#8) ∧
  (∀ s : State, s.len.val ≠ 0 → s.len.val ≠ 22 → ∃ t, exec .mark s = .next t ∧ t.out = none ∧
    t.cause = some .lengthMismatch ∧ t.len.val = 1 ∧ readByte t 0 = .ok 0xFA#8) ∧
  (∀ (s : State) (f : Frame), s.len.val = 22 → (∀ k : Fin 22, readByte s k.val = .ok f[k.val]) →
    ∃ t, exec .mark s = .next t ∧ t.out = some ⟨f, (validate f).ok⟩ ∧ t.cause = some (validate f).cause ∧
      t.len.val = 1 ∧ readByte t 0 = .ok 0xFA#8)

/-- 40_synchronizer.md R87 and 60_exceptions.md R143: at a MARK, a candidate of 1 to 21 or of more than 22 bytes is dropped, nothing is
emitted, and nothing about it is kept; one of 22 bytes goes to the Validator; only MARK gives this label, and no other length does. -/
def Obligations.LengthFilterDropsOtherLengths : Prop :=
  (∀ (s : State) (f : Frame), s.len.val = 22 → snapshot s = .ok f →
    ∃ t, exec .mark s = .next t ∧ t.out = some ⟨f, (validate f).ok⟩ ∧ t.cause = some (validate f).cause) ∧
  (∀ s : State, ((1 ≤ s.len.val ∧ s.len.val ≤ 21) ∨ s.len.val = 23) →
    ∃ t, exec .mark s = .next t ∧ t.cause = some .lengthMismatch ∧ t.out = none ∧ t.len.val = 1 ∧ readByte t 0 = .ok 0xFA#8) ∧
  (∀ (i : Instr) (s t : State), exec i s = .next t → t.cause = some .lengthMismatch →
    i = .mark ∧ ((1 ≤ s.len.val ∧ s.len.val ≤ 21) ∨ s.len.val = 23)) ∧
  (∀ (s s' : State), s.input = s'.input → ((1 ≤ s.len.val ∧ s.len.val ≤ 21) ∨ s.len.val = 23) →
    ((1 ≤ s'.len.val ∧ s'.len.val ≤ 21) ∨ s'.len.val = 23) → exec .mark s = exec .mark s')

/-- 60_exceptions.md R142 and R147: the closed list of causes with their codes; at a MARK that finds a candidate exactly one arises, by the
priority length, marker, index, checksum; a verdict is emitted unless it is `LengthMismatch`, and is valid exactly if it is `None`; no
other event gives a cause. -/
def Obligations.OneCauseByPriority : Prop :=
  (causeCode .noCause = 0 ∧ causeCode .lengthMismatch = 1 ∧ causeCode .badMarker = 2 ∧ causeCode .indexOutOfRange = 3 ∧
    causeCode .checksumMismatch = 4) ∧
  (∀ (i : Instr) (s t : State), exec i s = .next t → (t.cause.isSome ↔ i = .mark ∧ s.len.val ≠ 0)) ∧
  (∀ (s t : State) (c : Cause), exec .mark s = .next t → t.cause = some c →
    (c = .lengthMismatch ↔ s.len.val ≠ 22) ∧
    (∀ f, s.len.val = 22 → snapshot s = .ok f →
      c = if f[0] ≠ 0xFA#8 then .badMarker
        else if f[1].toNat < 0xA0 ∨ 0xF9 < f[1].toNat then .indexOutOfRange
        else if (checksum (blockOf f)).toNat ≠ f[20].toNat + 256 * f[21].toNat then .checksumMismatch
        else .noCause) ∧
    (t.out.isSome ↔ c ≠ .lengthMismatch) ∧
    (∀ v, t.out = some v → (v.ok = true ↔ c = .noCause)))

/-- 60_exceptions.md section 4 (R153): the state after a MARK does not depend on what became of the candidate. -/
def Obligations.RejectionLeavesNoTraceInTheState : Prop :=
  ∀ s s' t t' : State, s.Filled → s'.Filled → exec .mark s = .next t → exec .mark s' = .next t' → State.SameCore t t'

/-- The model's choice, log 4: a MARK that finds `LEN` 22 and a byte without a value stops with that byte's fault; no state that
satisfies the invariant does (`InvariantStatesAlwaysAnswer`). -/
def Obligations.MarkFaultsOnAByteWithoutValue : Prop :=
  ∀ (s : State) (k : Nat), s.len.val = 22 → k < 22 → Memory.read s.buf k = none →
    (∀ j, j < k → Memory.read s.buf j ≠ none) → exec .mark s = .fault (.noValue k)

/-- 40_synchronizer.md section 4 (R91 (a), (b)): a step emits if and only if it is a MARK that finds `LEN` 22, and then what it emits is
the judgement of the buffer. -/
def Obligations.OnlyMarkAtTwentyTwoEmits : Prop :=
  ∀ (i : Instr) (s t : State), exec i s = .next t →
    (t.out.isSome ↔ i = .mark ∧ s.len.val = 22) ∧
    (∀ v, t.out = some v → snapshot s = .ok v.frame ∧ v.ok = (validate v.frame).ok)

/-- 10_state.md section 3 (R27): no step reads the output or the label of an earlier one. -/
def Obligations.OutputsAreNotRead : Prop :=
  ∀ (i : Instr) (s : State) (o : Option Verdict) (c : Option Cause), exec i { s with out := o, cause := c } = exec i s

/-! ### The Validator -/

/-- 41_validator.md R101: a frame whose byte 0 is not `0xFA` is invalid with cause `BadMarker`, whatever the rest holds. -/
def Obligations.WrongMarkerIsRejectedFirst : Prop :=
  (∀ f : Frame, f[0] ≠ 0xFA#8 → validate f = ⟨false, .badMarker⟩) ∧
  (∀ f : Frame, f[0] = 0xFA#8 → (validate f).cause ≠ .badMarker) ∧
  (∀ (f : Frame) (v : Byte), v ≠ 0xFA#8 → validate (f.set 0 v) = ⟨false, .badMarker⟩)

/-- 41_validator.md R102: the index must lie in `[0xA0, 0xF9]`, unsigned, both bounds included. -/
def Obligations.IndexOutOfRangeIsRejected : Prop :=
  (∀ f : Frame, f[0] = 0xFA#8 → (f[1].toNat < 0xA0 ∨ 0xF9 < f[1].toNat) → validate f = ⟨false, .indexOutOfRange⟩) ∧
  (∀ f : Frame, (0xA0 ≤ f[1].toNat ∧ f[1].toNat ≤ 0xF9) → (validate f).cause ≠ .indexOutOfRange)

/-- 41_validator.md R103: with marker and index in order, all 16 bits of the little-endian stored word are compared with the checksum;
stored the other way round it fails unless the two bytes are equal. -/
def Obligations.StoredChecksumIsCompared : Prop :=
  (∀ f : Frame, f[0] = 0xFA#8 → (0xA0 ≤ f[1].toNat ∧ f[1].toNat ≤ 0xF9) →
    validate f = if (checksum (blockOf f)).toNat = f[20].toNat + 256 * f[21].toNat then ⟨true, .noCause⟩
      else ⟨false, .checksumMismatch⟩) ∧
  (∀ f : Frame, (validate f).ok = true → f[20] ≠ f[21] →
    validate ((f.set 20 f[21]).set 21 f[20]) = ⟨false, .checksumMismatch⟩)

/-- 41_validator.md R104: the whole function, its label by the first check that fails, and its verdict as one Boolean expression. -/
def Obligations.ValidateIsTheThreeChecks : Prop :=
  (∀ f : Frame, validate f =
    if f[0] ≠ 0xFA#8 then ⟨false, .badMarker⟩
    else if f[1] < 0xA0#8 ∨ f[1] > 0xF9#8 then ⟨false, .indexOutOfRange⟩
    else if (checksum (blockOf f)).setWidth 16 ≠ (f[20].setWidth 16 ||| (f[21].setWidth 16 <<< 8)) then ⟨false, .checksumMismatch⟩
    else ⟨true, .noCause⟩) ∧
  (∀ f : Frame, (validate f).ok = true ↔
    f[0] = 0xFA#8 ∧ (0xA0#8 ≤ f[1] ∧ f[1] ≤ 0xF9#8) ∧
      (checksum (blockOf f)).setWidth 16 = (f[20].setWidth 16 ||| (f[21].setWidth 16 <<< 8)))

/-- 41_validator.md section on bit 15 (R108): a frame with bit 15 of the stored word set is never valid, and with marker and index in
order the cause is `ChecksumMismatch`. -/
def Obligations.StoredBitFifteenIsNeverValid : Prop :=
  ∀ f : Frame, 0x80 ≤ f[21].toNat → (validate f).ok = false ∧
    (f[0] = 0xFA#8 → (0xA0 ≤ f[1].toNat ∧ f[1].toNat ≤ 0xF9) → (validate f).cause = .checksumMismatch)

/-- 30_encoding.md section 5 (R70 (b)) and 41_validator.md's index table: `FRAME(idx; b2 .. b19)` is valid exactly for the ninety
indices in range. -/
def Obligations.FrameLiteralIsValidForIndexInRange : Prop :=
  ∀ (idx : Byte) (p : Vector Byte 18),
    ((validate (frameLiteral idx p)).ok = true ↔ 0xA0 ≤ idx.toNat ∧ idx.toNat ≤ 0xF9) ∧
    (∀ k : Fin 18, (frameLiteral idx p)[k.val + 2] = p[k.val]) ∧
    (frameLiteral idx p)[0] = 0xFA#8 ∧ (frameLiteral idx p)[1] = idx

/-- 41_validator.md and 42_checksum.md (R130): changing any one byte of a valid frame makes it invalid. -/
def Obligations.AnyOneByteChangeInvalidatesAFrame : Prop :=
  ∀ (f : Frame) (k : Fin 22) (v : Byte), (validate f).ok = true → v ≠ f[k.val] → (validate (f.set k.val v)).ok = false

/-! ### The checksum -/

/-- 42_checksum.md R121: word `i` is little-endian, the byte at the even offset its low half. -/
def Obligations.WordsAreLittleEndian : Prop :=
  ∀ (d : Block) (i : Fin 10),
    wordAt d i = (d[2 * i.val].setWidth 16 ||| (d[2 * i.val + 1].setWidth 16 <<< 8)) ∧
    (wordAt d i).toNat = d[2 * i.val].toNat + 256 * d[2 * i.val + 1].toNat

/-- 42_checksum.md R122: one fold shifts the accumulator left by one and adds the word; it is no rotate, and within the values that
occur no bit is lost. -/
def Obligations.FoldShiftsAndAdds : Prop :=
  (∀ (cs : BitVec 32) (w : Half), foldWord cs w = (cs <<< 1) + w.setWidth 32) ∧
  (∀ (d : Block) (n : Nat) (hn : n < 10),
    let before : BitVec 32 := ((List.finRange 10).take n).foldl (fun cs i => foldWord cs (wordAt d i)) 0
    (foldWord before (wordAt d ⟨n, hn⟩)).toNat = 2 * before.toNat + (wordAt d ⟨n, hn⟩).toNat)

/-- 42_checksum.md section on accumulation (R123, its closed form is the spec's own inference): `CS` is the sum of `w[i] * 2^(9 - i)`. -/
def Obligations.AccumulatorClosedForm : Prop :=
  ∀ d : Block, (accumulateOf 32 d).toNat = ∑ i : Fin 10, (wordAt d i).toNat * 2 ^ (9 - i.val)

/-- 42_checksum.md section on the accumulator's width (R124, the spec's own inference): `CS` is at most `0x03FEFC01`, every width of 26
bits or more gives the same checksum, and every narrower one a wrong checksum for some input. -/
def Obligations.TwentySixBitsSuffice : Prop :=
  (∀ d : Block, (accumulateOf 32 d).toNat ≤ 0x03FEFC01) ∧
  (∀ (n : Nat) (d : Block), 26 ≤ n → (accumulateOf n d).toNat = (accumulateOf 32 d).toNat ∧ checksumOf n d = checksum d) ∧
  (∀ n : Nat, n < 26 → ∃ d : Block, checksumOf n d ≠ checksum d)

/-- 42_checksum.md R125: the reduction adds the low 15 bits and everything above them once, and masks again; with the bounds of `CS`
no bit is lost before the second mask. -/
def Obligations.ReduceFoldsOnceAndMasksTwice : Prop :=
  (∀ cs : BitVec 32, cs.toNat ≤ 67042305 →
    (sum16Of cs).toNat = cs.toNat % 2 ^ 15 + cs.toNat / 2 ^ 15 ∧ (sum16Of cs).toNat ≤ 34812 ∧
    (reduce cs).toNat = (sum16Of cs).toNat % 2 ^ 15 ∧ (reduce cs).toNat ≤ 0x7FFF) ∧
  (∀ d : Block, (accumulateOf 32 d).toNat ≤ 67042305 ∧ checksum d = reduce (accumulateOf 32 d))

/-- 42_checksum.md, the whole function of R127 put as arithmetic on the ten words. It uses the closed form "CS = sum over i = 0..9 of
w[i] * 2^(9 - i)", which the spec marks as its own inference (R123, "[derived: by unrolling the loop]") and R127 does not say; with
the corner cases R127 names, all bytes zero and all bytes `0xFF`. -/
def Obligations.ChecksumOfTheTenWords : Prop :=
  (∀ d : Block,
    let cs := ∑ i : Fin 10, (d[2 * i.val].toNat + 256 * d[2 * i.val + 1].toNat) * 2 ^ (9 - i.val)
    (checksum d).toNat = (cs % 2 ^ 15 + cs / 2 ^ 15) % 2 ^ 15) ∧
  accumulateOf 32 (Vector.replicate 20 0) = 0 ∧ checksum (Vector.replicate 20 0) = 0 ∧ checksum (Vector.replicate 20 0xFF) = 0x03FE ∧
  accumulateOf 32 (Vector.replicate 20 0xFF) = 0x03FEFC01

/-- 42_checksum.md section on arithmetic facts (R128, the spec's own inference): with `g = (CS mod 2^15) + (CS div 2^15)`, `chk` is `g` and
congruent to `CS` modulo 32767, or the addition carries, `chk` is `g - 0x8000` and congruent to `CS - 1`. -/
def Obligations.ChecksumCongruence : Prop :=
  ∀ d : Block,
    let cs := (accumulateOf 32 d).toNat
    let g := cs % 2 ^ 15 + cs / 2 ^ 15
    g % 32767 = cs % 32767 ∧
    (g < 0x8000 → (checksum d).toNat = g ∧ (checksum d).toNat % 32767 = cs % 32767) ∧
    (0x8000 ≤ g → (checksum d).toNat + 0x8000 = g ∧ ((checksum d).toNat + 1) % 32767 = cs % 32767)

/-- 42_checksum.md section on error detection (R130 (a), (b), the spec's own inference): replacing any one of the 20 bytes by a
different value changes the checksum. -/
def Obligations.AnyOneByteChangesTheChecksum : Prop :=
  ∀ (d : Block) (k : Fin 20) (v : Byte), v ≠ d[k.val] → checksum (d.set k.val v) ≠ checksum d

/-! ### The frame as memory and on the pins -/

/-- 20_memory.md section 2 (R53): a 16-bit read of the buffer sees the two bytes appended at its offsets, and the words the checksum
folds and the stored checksum are those reads. -/
def Obligations.SixteenBitReadsSeeTheAppendedBytes : Prop :=
  ∀ (s : State) (f : Frame), snapshot s = .ok f →
    (∀ i : Fin 10, readHalf s (2 * i.val) = .ok (wordAt (blockOf f) i)) ∧ readHalf s 20 = .ok (storedOf f)

/-- In the states of the invariant exactly the offsets below `min(LEN, 22)` hold a value (10_state.md section 5, R33), and the candidate
view is as long as that. THE MODEL'S CHOICE, deduced from the spec, is what a read elsewhere does: an existing byte without a value
faults with `noValue` (log 4, from R33), and an offset of 22 or above, which does not exist (20_memory.md section 1, R40), faults with
`noSuchOffset` (log 13). -/
def Obligations.OnlyBytesOfTheCandidateHoldAValue : Prop :=
  ∀ s : State, s.Filled →
    (∀ k, k < min s.len.val 22 → ∃ b, readByte s k = .ok b) ∧
    (∀ k, min s.len.val 22 ≤ k → k < 22 → readByte s k = .error (.noValue k)) ∧
    (∀ k, 22 ≤ k → readByte s k = .error (.noSuchOffset k)) ∧
    s.candidate.length = min s.len.val 22

/-- 30_encoding.md sections 2 and 3 (R63, R72): packing a frame onto 176 bits loses nothing either way, byte `k` is `F[8k+7 : 8k]`, the
fields are the slices the layout names, and the two stand-alone blocks compute the Validator and the checksum. -/
def Obligations.FramePackingIsFaithful : Prop :=
  (∀ f : Frame, unpackFrame (packFrame f) = f) ∧
  (∀ F : BitVec 176, packFrame (unpackFrame F) = F) ∧
  (∀ (F : BitVec 176) (k : Fin 22), (unpackFrame F)[k.val] = F.extractLsb' (8 * k.val) 8) ∧
  (∀ (F : BitVec 176) (i : Fin 10), wordAt (blockOf (unpackFrame F)) i = F.extractLsb' (16 * i.val) 16) ∧
  (∀ (F : BitVec 176) (j : Fin 8), sampleOf (unpackFrame F) j = F.extractLsb' (32 + 16 * j.val) 16) ∧
  (∀ F : BitVec 176, speedOf (unpackFrame F) = F.extractLsb' 16 16 ∧ storedOf (unpackFrame F) = F.extractLsb' 160 16) ∧
  (∀ f : Frame, validateBlock (packFrame f) = (validate f).ok) ∧
  (∀ F : BitVec 176, checksumBlock (F.extractLsb' 0 160) = checksum (blockOf (unpackFrame F)))

/-- 30_encoding.md section 3 (R67): over a run of clock edges, `out_valid` is 1 in exactly the cycles whose step emits, and then `out_ok`
and `out_frame` carry that verdict. Nothing is said of them in other cycles (free values, log 9); no latency is the model's choice
(log 8). -/
def Obligations.OutputPinsCarryTheVerdict : Prop :=
  ∀ (ps : List InPins) (s t : State) (os : List (Option Verdict)),
    runEvents (ps.map fun p => decode (pinWord p)) s = some (t, os) →
    ∃ qs, runPins ps s = some qs ∧ qs.length = os.length ∧
      ∀ (n : Nat) (q : OutPins) (o : Option Verdict), qs[n]? = some q → os[n]? = some o →
        (q.outValid = o.isSome) ∧ (∀ v, o = some v → q.outOk = v.ok ∧ unpackFrame q.outFrame = v.frame)

/-! ### Invariants -/

/-- 10_state.md section 5 (R28): the invariant holds right after reset. -/
def Obligations.InvariantHoldsAtReset : Prop := State.reset.Inv

/-- 10_state.md section 5 (R28 (I2), R33): every step keeps it: exactly the bytes of the candidate hold a value, and a marker byte stands
at offset 0 only. -/
def Obligations.EveryStepKeepsTheInvariant : Prop :=
  ∀ s t : State, s.Inv → step s = .next t → t.Inv

/-- 00_scope.md section 4 (R10): in every state of the invariant the step answers a next state, whatever is presented; it never faults
and never refuses. -/
def Obligations.InvariantStatesAlwaysAnswer : Prop :=
  (∀ s : State, s.Inv → ∃ t, step s = .next t) ∧
  (∀ (is : List Instr) (s : State), s.Inv → (∀ i ∈ is, i.WellFormed) →
    ∃ t os, runEvents is s = some (t, os) ∧ t.Inv ∧ os.length = is.length)

/-- The form of `BUF`'s list (the model's own, log 4): every step keeps offsets strictly rising and below 22, whatever else the state
holds. -/
def Obligations.EveryStepKeepsMemoryCanonical : Prop :=
  ∀ s t : State, s.buf.wf → step s = .next t → t.buf.wf

/-- 10_state.md section 5 (R28 (I3), (I4), (I5)): what the events since the last RESET or EOS say of the buffer. -/
def Obligations.BufferByHistory : Prop :=
  ∀ (is : List Instr) (t : State) (os : List (Option Verdict)), (∀ i ∈ is, i.WellFormed) →
    runEvents is State.reset = some (t, os) →
    (.mark ∈ sinceClear is → 1 ≤ t.len.val ∧ readByte t 0 = .ok 0xFA#8) ∧
    (.mark ∉ sinceClear is → (∀ k b, readByte t k = .ok b → b ≠ 0xFA#8) ∧
      verdictsOf (os.drop (is.length - (sinceClear is).length)) = []) ∧
    (t.len.val = 0 ↔ ∀ i ∈ sinceClear is, i = .idle)

/-! ### Streams -/

/-- 40_synchronizer.md section 4 (R92): no frame that reaches the Validator through the synchronizer has a marker byte at offsets 1 to
21. -/
def Obligations.PipelineFramesHoldNoInnerMarker : Prop :=
  ∀ (s t : State) (v : Verdict), s.Inv → exec .mark s = .next t → t.out = some v →
    ∀ k : Fin 22, 1 ≤ k.val → v.frame[k.val] ≠ 0xFA#8

/-- 40_synchronizer.md section 4 (R89 (e)): nothing that happened before a marker influences what comes after it. -/
def Obligations.FramingHealsAtAMarker : Prop :=
  ∀ (s s' t t' u u' : State) (is : List Instr) (os os' : List (Option Verdict)),
    s.Filled → s'.Filled → exec .mark s = .next t → exec .mark s' = .next t' →
    runEvents is t = some (u, os) → runEvents is t' = some (u', os') → os = os' ∧ State.SameCore u u'

/-- 40_synchronizer.md section 4 (R91 (e)): after a MARK step the next verdict comes no sooner than 22 steps later. -/
def Obligations.VerdictsAreTwentyTwoStepsApart : Prop :=
  ∀ (s t u : State) (is : List Instr) (os : List (Option Verdict)) (n : Nat) (v : Verdict),
    exec .mark s = .next t → runEvents is t = some (u, os) → os[n]? = some (some v) → 22 ≤ n + 1

/-- 40_synchronizer.md section 4 (R88 (d)): over any stream from reset, the step that consumes byte `k` emits exactly what the bytes of
the stream say: at a marker, the verdict of the 22 bytes collected since the last marker or the start, and otherwise nothing. -/
def Obligations.StreamOutputsByPosition : Prop :=
  ∀ bs : List Byte, ∃ t os, runEvents (bs.map eventOfByte) State.reset = some (t, os) ∧
    os = (List.range bs.length).map (outputAt bs)

/-- 40_synchronizer.md section 4 (R88 (a) to (e)): the verdicts of a stream are those of its flushed candidates of 22 bytes, in order; a
stream without a marker has none, the trailing segment is never judged, and of `m` markers at most `m - 1` close a valid frame. -/
def Obligations.StreamVerdictsAreThoseOfItsCandidates : Prop :=
  ∀ bs : List Byte, ∃ t os, runEvents (bs.map eventOfByte) State.reset = some (t, os) ∧
    verdictsOf os = (candidates bs).filterMap verdictOf ∧
    (markerPositions bs = [] → verdictsOf os = []) ∧
    (verdictsOf os).length ≤ (markerPositions bs).length ∧
    ((verdictsOf os).filter (·.ok)).length ≤ (markerPositions bs).length - 1

/-- 41_validator.md section on causes (R107) and 70_reset_and_hazards.md R175: through the pipeline a frame with the wrong marker is
reported at most once in a stream, and only at the stream's first marker. -/
def Obligations.BadMarkerOnlyForTheLeadingSegment : Prop :=
  ∀ (bs : List Byte) (t : State) (os : List (Option Verdict)) (n : Nat) (v : Verdict),
    runEvents (bs.map eventOfByte) State.reset = some (t, os) → os[n]? = some (some v) → v.frame[0] ≠ 0xFA#8 →
    (markerPositions bs).head? = some n ∧ n = 22

/-- 10_state.md section 1 (R22): (`BUF`, `LEN`) and the source's growable buffer keep holding the same candidate and emit the same
outputs, event by event. -/
def Obligations.GrowableBufferIsSimulated : Prop :=
  Tracks [] State.reset ∧
  (∀ (g : List Byte) (s : State) (i : Instr), Tracks g s →
    ∃ t, exec i s = .next t ∧ t.out = (growableStep g i).2 ∧ Tracks (growableStep g i).1 t) ∧
  (∀ is : List Instr, ∃ t, runEvents is State.reset = some (t, (growableRun is []).2) ∧ Tracks (growableRun is []).1 t)

/-- 40_synchronizer.md section 4 (R88 (d), the spec's own inference), as an invariant every stream byte keeps: a state, whichever it is,
that holds the candidate the bytes `bs` leave emits at the next byte `b` exactly what the bytes say, and then holds the candidate that
`bs` and `b` leave. The reset state holds the candidate of no bytes. -/
def Obligations.EveryByteKeepsTheStreamsCandidate : Prop :=
  TracksStream [] State.reset ∧
  ∀ (bs : List Byte) (b : Byte) (s : State), TracksStream bs s →
    ∃ t, exec (eventOfByte b) s = .next t ∧ t.out = outputAt (bs ++ [b]) bs.length ∧ TracksStream (bs ++ [b]) t
end

