-- ==== Sys2Proof/Laws/State.lean ====
section
/-! SUPPORT. Sys2Proof/Laws/State.lean: one lemma per field per update of the state, so that no proof unfolds a record update. -/

namespace Sys2Proof.Machine

@[simp] theorem silent_len (s : State) : (silent s).len = s.len := rfl
@[simp] theorem silent_buf (s : State) : (silent s).buf = s.buf := rfl
@[simp] theorem silent_out (s : State) : (silent s).out = none := rfl
@[simp] theorem silent_cause (s : State) : (silent s).cause = none := rfl
@[simp] theorem silent_input (s : State) : (silent s).input = s.input := rfl

@[simp] theorem clear_len (s : State) : (clear s).len = 0 := rfl
@[simp] theorem clear_buf (s : State) : (clear s).buf = [] := rfl
@[simp] theorem clear_out (s : State) : (clear s).out = s.out := rfl
@[simp] theorem clear_cause (s : State) : (clear s).cause = s.cause := rfl
@[simp] theorem clear_input (s : State) : (clear s).input = s.input := rfl

@[simp] theorem emitVerdict_len (f : Frame) (j : Judgement) (s : State) : (emitVerdict f j s).len = s.len := rfl
@[simp] theorem emitVerdict_buf (f : Frame) (j : Judgement) (s : State) : (emitVerdict f j s).buf = s.buf := rfl
@[simp] theorem emitVerdict_out (f : Frame) (j : Judgement) (s : State) : (emitVerdict f j s).out = some ⟨f, j.ok⟩ := rfl
@[simp] theorem emitVerdict_cause (f : Frame) (j : Judgement) (s : State) : (emitVerdict f j s).cause = some j.cause := rfl
@[simp] theorem emitVerdict_input (f : Frame) (j : Judgement) (s : State) : (emitVerdict f j s).input = s.input := rfl

@[simp] theorem dropCandidate_len (c : Cause) (s : State) : (dropCandidate c s).len = s.len := rfl
@[simp] theorem dropCandidate_buf (c : Cause) (s : State) : (dropCandidate c s).buf = s.buf := rfl
@[simp] theorem dropCandidate_out (c : Cause) (s : State) : (dropCandidate c s).out = none := rfl
@[simp] theorem dropCandidate_cause (c : Cause) (s : State) : (dropCandidate c s).cause = some c := rfl
@[simp] theorem dropCandidate_input (c : Cause) (s : State) : (dropCandidate c s).input = s.input := rfl

@[simp] theorem writeByte_len (s : State) (k : Nat) (b : Byte) : (writeByte s k b).len = s.len := rfl
@[simp] theorem writeByte_buf (s : State) (k : Nat) (b : Byte) : (writeByte s k b).buf = Memory.write s.buf k b := rfl
@[simp] theorem writeByte_out (s : State) (k : Nat) (b : Byte) : (writeByte s k b).out = s.out := rfl
@[simp] theorem writeByte_cause (s : State) (k : Nat) (b : Byte) : (writeByte s k b).cause = s.cause := rfl
@[simp] theorem writeByte_input (s : State) (k : Nat) (b : Byte) : (writeByte s k b).input = s.input := rfl

@[simp] theorem presentEvent_len (s : State) (w : EventWord) : (presentEvent s w).len = s.len := rfl
@[simp] theorem presentEvent_buf (s : State) (w : EventWord) : (presentEvent s w).buf = s.buf := rfl
@[simp] theorem presentEvent_out (s : State) (w : EventWord) : (presentEvent s w).out = s.out := rfl
@[simp] theorem presentEvent_cause (s : State) (w : EventWord) : (presentEvent s w).cause = s.cause := rfl
@[simp] theorem presentEvent_input (s : State) (w : EventWord) : (presentEvent s w).input = w :: s.input := rfl

@[simp] theorem append_len (b : Byte) (s : State) : (append b s).len = lenSucc s.len := rfl
@[simp] theorem append_out (b : Byte) (s : State) : (append b s).out = s.out := rfl
@[simp] theorem append_cause (b : Byte) (s : State) : (append b s).cause = s.cause := rfl
@[simp] theorem append_input (b : Byte) (s : State) : (append b s).input = s.input := rfl

/-- What APPEND does to `BUF` (40_synchronizer.md R85). -/
theorem append_buf (b : Byte) (s : State) :
    (append b s).buf = if s.len.val ≤ 21 then Memory.write s.buf s.len.val b else s.buf := by
  by_cases h : s.len.val ≤ 21 <;> simp [append, appendOffset, h]

/-- `LEN + 1` below the top, 23 at it (10_state.md R30). -/
theorem lenSucc_val (n : Fin 24) : (lenSucc n).val = if n.val < 23 then n.val + 1 else n.val := by
  unfold lenSucc; split <;> simp_all

end Sys2Proof.Machine
end

