-- ==== Sys2Proof/Laws/Memory.lean ====
section
/-! SUPPORT. Sys2Proof/Laws/Memory.lean: reads after writes, and that every operation on `BUF` keeps the canonical form. -/

namespace Sys2Proof.Machine

@[simp] theorem Memory.read_nil (k : Nat) : Memory.read [] k = none := rfl

/-- A read of the offset written gives the byte written. -/
@[simp] theorem Memory.read_write_same (m : Memory) (k : Nat) (b : Byte) : Memory.read (Memory.write m k b) k = some b := by
  induction m with
  | nil => simp [Memory.write, Memory.read]
  | cons c m ih =>
    obtain ⟨a, x⟩ := c
    unfold Memory.write
    split
    · simp [Memory.read]
    · split
      · simp [Memory.read]
      · simp [Memory.read, ih]; omega

/-- A write leaves every other offset alone. -/
theorem Memory.read_write_other (m : Memory) {k j : Nat} (b : Byte) (h : j ≠ k) :
    Memory.read (Memory.write m k b) j = Memory.read m j := by
  have h' : ¬k = j := fun e => h e.symm
  induction m with
  | nil => simp [Memory.write, Memory.read, h']
  | cons c m ih =>
    obtain ⟨a, x⟩ := c
    unfold Memory.write
    split
    · simp [Memory.read, h']
    · split
      · rename_i hk
        simp [Memory.read, ← hk, h']
      · simp [Memory.read, ih]

/-- The cells after a write are the one written and cells that were there. -/
theorem Memory.mem_write {m : Memory} {k : Nat} {b : Byte} {c : Host.Cell} (h : c ∈ Memory.write m k b) :
    c = (k, b) ∨ c ∈ m := by
  induction m with
  | nil => simpa [Memory.write] using h
  | cons d m ih =>
    obtain ⟨a, x⟩ := d
    unfold Memory.write at h
    split at h
    · simpa using h
    · split at h
      · rcases List.mem_cons.1 h with h | h
        · exact .inl h
        · exact .inr (List.mem_cons_of_mem _ h)
      · rcases List.mem_cons.1 h with h | h
        · exact .inr (h ▸ List.mem_cons_self)
        · exact (ih h).imp id (List.mem_cons_of_mem _)

/-- A write keeps the offsets strictly rising. -/
theorem Memory.write_sorted {m : Memory} (k : Nat) (b : Byte) (h : (m.map Prod.fst).Pairwise (· < ·)) :
    ((Memory.write m k b).map Prod.fst).Pairwise (· < ·) := by
  induction m with
  | nil => simp [Memory.write]
  | cons c m ih =>
    obtain ⟨a, x⟩ := c
    simp only [List.map_cons, List.pairwise_cons] at h
    unfold Memory.write
    split
    · rename_i hk
      simp only [List.map_cons, List.pairwise_cons]
      refine ⟨fun y hy => ?_, h⟩
      rcases List.mem_cons.1 hy with rfl | hy
      · exact hk
      · exact hk.trans (h.1 y hy)
    · split
      · rename_i hk
        subst hk
        simpa only [List.map_cons, List.pairwise_cons] using h
      · simp only [List.map_cons, List.pairwise_cons]
        refine ⟨fun y hy => ?_, ih h.2⟩
        obtain ⟨c, hc, rfl⟩ := List.mem_map.1 hy
        rcases Memory.mem_write hc with rfl | hc
        · simp only; omega
        · exact h.1 _ (List.mem_map_of_mem hc)

/-- A write at an offset that exists keeps the canonical form. -/
theorem Memory.wf_write {m : Memory} {k : Nat} (b : Byte) (hk : k < 22) (h : Memory.wf m) : Memory.wf (Memory.write m k b) := by
  refine ⟨Memory.write_sorted k b h.1, fun c hc => ?_⟩
  rcases Memory.mem_write hc with rfl | hc
  · exact hk
  · exact h.2 c hc

/-- The empty memory is canonical. -/
theorem Memory.wf_nil : Memory.wf [] := by simp [Memory.wf]

/-- A write above every listed offset is listed last. -/
theorem Memory.write_last {m : Memory} {k : Nat} (b : Byte) (h : ∀ c ∈ m, c.1 < k) : Memory.write m k b = m ++ [(k, b)] := by
  induction m with
  | nil => rfl
  | cons c m ih =>
    obtain ⟨a, x⟩ := c
    have ha : a < k := h _ List.mem_cons_self
    simp only [Memory.write, List.cons_append]
    rw [if_neg (by omega), if_neg (by omega), ih fun c hc => h c (List.mem_cons_of_mem _ hc)]

/-- The bytes that can be read are those listed, whatever the list. -/
theorem Memory.mem_of_read {m : Memory} {k : Nat} {b : Byte} (h : Memory.read m k = some b) : (k, b) ∈ m := by
  induction m with
  | nil => simp at h
  | cons c m ih =>
    obtain ⟨a, x⟩ := c
    simp only [Memory.read] at h
    split at h
    · simp_all
    · exact List.mem_cons_of_mem _ (ih h)

/-- An offset can be read exactly if it is listed. -/
theorem Memory.read_isSome_iff (m : Memory) (k : Nat) : (Memory.read m k).isSome ↔ k ∈ m.map Prod.fst := by
  induction m with
  | nil => simp
  | cons c m ih =>
    obtain ⟨a, x⟩ := c
    simp only [Memory.read, List.map_cons, List.mem_cons]
    by_cases h : a = k
    · simp [h]
    · simp only [if_neg h, ih]
      exact ⟨.inr, fun hk => hk.resolve_left (fun e => h e.symm)⟩

/-- The cells of a memory whose offsets rise strictly are what it reads. -/
theorem Memory.read_of_mem {m : Memory} {k : Nat} {b : Byte} (hs : (m.map Prod.fst).Pairwise (· < ·)) (h : (k, b) ∈ m) :
    Memory.read m k = some b := by
  induction m with
  | nil => simp at h
  | cons c m ih =>
    obtain ⟨a, x⟩ := c
    simp only [List.map_cons, List.pairwise_cons] at hs
    rcases List.mem_cons.1 h with h | h
    · simp_all [Memory.read]
    · have : a < k := hs.1 k (List.mem_map_of_mem h)
      simp only [Memory.read]
      rw [if_neg (by omega), ih hs.2 h]

/-- APPEND keeps the canonical form of `BUF`. -/
theorem append_wf (b : Byte) {s : State} (h : s.buf.wf) : (append b s).buf.wf := by
  rw [append_buf]
  split
  · exact Memory.wf_write b (by omega) h
  · exact h

/-- The clear leaves a canonical `BUF`. -/
theorem clear_wf (s : State) : (clear s).buf.wf := Memory.wf_nil

/-- The reset state's `BUF` is canonical. -/
theorem reset_wf : State.reset.buf.wf := Memory.wf_nil

end Sys2Proof.Machine
end

