-- ==== Sys2Proof/Laws/Operands.lean ====
section
/-! SUPPORT. Sys2Proof/Laws/Operands.lean: the fields of a frame by their offsets (30_encoding.md R64), and the bytes of its packings. -/

namespace Sys2Proof.Machine

theorem markerOf_eq (f : Frame) : markerOf f = f[0] := rfl
theorem indexOf_eq (f : Frame) : indexOf f = f[1] := rfl
theorem storedOf_eq (f : Frame) : storedOf f = littleEndian f[20] f[21] := rfl
theorem wordAt_eq (d : Block) (i : Fin 10) : wordAt d i = littleEndian d[2 * i.val] d[2 * i.val + 1] := rfl

/-- The checksum's input is the frame's first 20 bytes (42_checksum.md R120). -/
@[simp] theorem blockOf_getElem (f : Frame) (k : Nat) (h : k < 20) : (blockOf f)[k] = f[k] := by
  simp [blockOf]

/-- Byte `k` of an unpacked frame (30_encoding.md R63). -/
@[simp] theorem unpackFrame_getElem (F : BitVec 176) (k : Nat) (h : k < 22) : (unpackFrame F)[k] = F.extractLsb' (8 * k) 8 := by
  simp [unpackFrame]

/-- The marker check passes exactly for `0xFA` (41_validator.md R101). -/
theorem markerOk_iff (f : Frame) : markerOk f = true ↔ f[0] = 0xFA#8 := by
  simp [markerOk, isMarker, markerOf_eq, Config.startMarker]

/-- The index check passes exactly for the range (41_validator.md R102). -/
theorem indexOk_iff (f : Frame) : indexOk f = true ↔ 0xA0 ≤ f[1].toNat ∧ f[1].toNat ≤ 0xF9 := by
  simp [indexOk, indexOf_eq, Config.idxLo, Config.idxHi, BitVec.le_def]

/-- What Validate can answer, and when. -/
theorem validate_cases (f : Frame) :
    (markerOk f = false ∧ validate f = ⟨false, .badMarker⟩) ∨
    (markerOk f = true ∧ indexOk f = false ∧ validate f = ⟨false, .indexOutOfRange⟩) ∨
    (markerOk f = true ∧ indexOk f = true ∧ checksumOk f = false ∧ validate f = ⟨false, .checksumMismatch⟩) ∨
    (markerOk f = true ∧ indexOk f = true ∧ checksumOk f = true ∧ validate f = ⟨true, .noCause⟩) := by
  unfold validate
  cases markerOk f <;> cases indexOk f <;> cases checksumOk f <;> simp [raiseReject, accept]

end Sys2Proof.Machine
end

