-- ==== Sys2Proof/Laws/Ops.lean ====
section
/-! SUPPORT. Sys2Proof/Laws/Ops.lean: for each shared operation, one lemma that says once everything it can do. -/

namespace Sys2Proof.Machine

/-- A byte read gives a byte exactly where the offset exists and is listed. -/
theorem readByte_eq_ok {s : State} {k : Nat} {b : Byte} : readByte s k = .ok b ↔ k < 22 ∧ Memory.read s.buf k = some b := by
  unfold readByte
  split
  · split <;> simp_all
  · simp_all

/-- The fault of a byte read: the offset does not exist, or its byte holds no value. -/
theorem readByte_eq_error {s : State} {k : Nat} {e : Fault} :
    readByte s k = .error e ↔ (22 ≤ k ∧ e = .noSuchOffset k) ∨ (k < 22 ∧ Memory.read s.buf k = none ∧ e = .noValue k) := by
  unfold readByte
  by_cases h : k < 22
  · have h' : ¬22 ≤ k := by omega
    cases hm : Memory.read s.buf k <;> simp [h, h', eq_comm]
  · have h' : 22 ≤ k := by omega
    simp [h, h', eq_comm]

/-- A 16-bit read gives the little-endian word of its two bytes. -/
theorem readHalf_of_ok {s : State} {k : Nat} {lo hi : Byte} (h0 : readByte s k = .ok lo) (h1 : readByte s (k + 1) = .ok hi) :
    readHalf s k = .ok (littleEndian lo hi) := by simp [readHalf, h0, h1]

/-- The first `n` bytes are read exactly if each of them can be. -/
theorem readFirst_eq_ok {s : State} {n : Nat} {v : Vector Byte n} :
    readFirst s n = .ok v ↔ ∀ k (h : k < n), readByte s k = .ok v[k] := by
  induction n with
  | zero => simp [readFirst]
  | succ n ih =>
    have hpush : v = v.pop.push v.back := by simp
    constructor
    · intro h k hk
      unfold readFirst at h
      split at h
      · cases h
      · rename_i u hu
        split at h
        · cases h
        · rename_i b hb
          obtain rfl : u.push b = v := by simpa using h
          rw [Vector.getElem_push]
          split
          · exact (ih.1 hu) k _
          · obtain rfl : k = n := by omega
            exact hb
    · intro h
      have h1 : readFirst s n = .ok v.pop := ih.2 fun k hk => by
        rw [h k (by omega)]; simp
      have h2 : readByte s n = .ok v.back := by
        rw [h n (by omega)]; simp [Vector.back_eq_getElem]
      simp only [readFirst, h1, h2]
      rw [← hpush]

/-- The snapshot is the 22 bytes read one by one. -/
theorem snapshot_eq_ok {s : State} {f : Frame} : snapshot s = .ok f ↔ ∀ k : Fin 22, readByte s k.val = .ok f[k.val] := by
  unfold snapshot
  rw [readFirst_eq_ok]
  exact ⟨fun h k => h k.val k.isLt, fun h k hk => h ⟨k, hk⟩⟩

/-- What FLUSH can do: judge, fault on a byte without a value, or drop. -/
theorem flush_cases (s : State) :
    (s.len = 22 ∧ ∃ f, snapshot s = .ok f ∧ flush s = .ok (clear (emitVerdict f (validate f) s))) ∨
    (s.len = 22 ∧ ∃ e, snapshot s = .error e ∧ flush s = .error e) ∨
    (s.len ≠ 22 ∧ flush s = .ok (clear (dropCandidate .lengthMismatch s))) := by
  unfold flush State.lenIsFull
  by_cases h : s.len = 22
  · cases hs : snapshot s with
    | ok f => exact .inl ⟨h, f, rfl, by simp [h]⟩
    | error e => exact .inr (.inl ⟨h, e, rfl, by simp [h]⟩)
  · exact .inr (.inr ⟨h, by simp [h]⟩)

/-- What MARK can do. -/
theorem execMark_cases (s : State) :
    (s.len = 0 ∧ execMark s = .next (append Config.startMarker (silent s))) ∨
    (s.len ≠ 0 ∧ s.len ≠ 22 ∧ execMark s = .next (append Config.startMarker (clear (dropCandidate .lengthMismatch s)))) ∨
    (s.len = 22 ∧ ∃ f, snapshot s = .ok f ∧ execMark s = .next (append Config.startMarker (clear (emitVerdict f (validate f) s)))) ∨
    (s.len = 22 ∧ ∃ e, snapshot s = .error e ∧ execMark s = .fault e) := by
  unfold execMark flushIfNonEmpty State.lenIsZero
  by_cases h0 : s.len = 0
  · exact .inl ⟨h0, by simp [h0, Except.map, answer]⟩
  · rcases flush_cases s with ⟨h, f, hs, hf⟩ | ⟨h, e, hs, hf⟩ | ⟨h, hf⟩
    · exact .inr (.inr (.inl ⟨h, f, hs, by simp [h0, hf, Except.map, answer]⟩))
    · exact .inr (.inr (.inr ⟨h, e, hs, by simp [h0, hf, Except.map, answer]⟩))
    · exact .inr (.inl ⟨h0, h, by simp [h0, hf, Except.map, answer]⟩)

/-- What any event can do, if it answers a next state: one case per event, MARK's by `LEN`. -/
theorem exec_next_cases {i : Instr} {s t : State} (h : exec i s = .next t) :
    (i = .reset ∧ t = clear (silent s)) ∨
    (i = .idle ∧ t = silent s) ∨
    (i = .eos ∧ t = clear (silent s)) ∨
    (∃ b, i = .data b ∧ t = append b (silent s)) ∨
    (i = .mark ∧ s.len = 0 ∧ t = append Config.startMarker (silent s)) ∨
    (i = .mark ∧ s.len ≠ 0 ∧ s.len ≠ 22 ∧ t = append Config.startMarker (clear (dropCandidate .lengthMismatch s))) ∨
    (i = .mark ∧ s.len = 22 ∧ ∃ f, snapshot s = .ok f ∧ t = append Config.startMarker (clear (emitVerdict f (validate f) s))) := by
  cases i with
  | reset => cases h; exact .inl ⟨rfl, rfl⟩
  | idle => cases h; exact .inr (.inl ⟨rfl, rfl⟩)
  | eos => cases h; exact .inr (.inr (.inl ⟨rfl, rfl⟩))
  | data b => cases h; exact .inr (.inr (.inr (.inl ⟨b, rfl, rfl⟩)))
  | mark =>
    change execMark s = .next t at h
    rcases execMark_cases s with ⟨h0, e⟩ | ⟨h0, h1, e⟩ | ⟨h0, f, hf, e⟩ | ⟨h0, x, hx, e⟩
    · cases e.symm.trans h; exact .inr (.inr (.inr (.inr (.inl ⟨rfl, h0, rfl⟩))))
    · cases e.symm.trans h; exact .inr (.inr (.inr (.inr (.inr (.inl ⟨rfl, h0, h1, rfl⟩)))))
    · cases e.symm.trans h; exact .inr (.inr (.inr (.inr (.inr (.inr ⟨rfl, h0, f, hf, rfl⟩)))))
    · cases e.symm.trans h

/-- No event is refused (00_scope.md R10). -/
theorem exec_not_refused (i : Instr) (s : State) (r : Refusal) : exec i s ≠ .refused r := by
  cases i with
  | mark =>
    change execMark s ≠ _
    unfold execMark
    cases (flushIfNonEmpty s).map (append Config.startMarker) <;> simp [answer]
  | _ => exact fun h => by cases h

/-- What the sampling of an event can give. -/
theorem fetchEvent_cases (s : State) :
    (s.input = [] ∧ fetchEvent s = (.idle, s)) ∨
    (∃ w rest, s.input = w :: rest ∧ fetchEvent s = (decode w, { s with input := rest })) := by
  unfold fetchEvent
  cases h : s.input with
  | nil => exact .inl ⟨rfl, rfl⟩
  | cons w rest => exact .inr ⟨w, rest, rfl, rfl⟩

/-- A byte sequence is a frame exactly if it has 22 bytes, and then the frame holds those. -/
theorem toFrame?_eq_some {c : List Byte} {f : Frame} : toFrame? c = some f ↔ f.toList = c := by
  unfold toFrame?
  constructor
  · intro h
    split at h
    · obtain rfl := Option.some.inj h; rfl
    · cases h
  · rintro rfl
    have : f.toList.length = 22 := f.length_toList
    rw [dif_pos this]
    rcases f with ⟨a, ha⟩
    simp [Vector.toList]

end Sys2Proof.Machine
end

