-- ==== Sys2Proof/Laws/PerInstr.lean ====
section
/-! SUPPORT. Sys2Proof/Laws/PerInstr.lean: per event, the word the encoder gives selects the event's row of the opcode table
(30_encoding.md R62, R71). -/

namespace Sys2Proof.Laws.RowOfEncoding

/-- The encoding of a well-formed event selects the event's own row. -/
def Statement (i : Instr) : Prop := i.WellFormed → selectsRow i (encode i) = true

theorem reset : Statement .reset := by unfold Statement; decide
theorem idle : Statement .idle := by unfold Statement; decide
theorem eos : Statement .eos := by unfold Statement; decide
theorem mark : Statement .mark := by unfold Statement; decide
theorem data (b : Byte) : Statement (.data b) := by unfold Statement; revert b; decide

end Sys2Proof.Laws.RowOfEncoding
end

