-- ==== Sys2Proof/Laws/Stream.lean ====
section
/-! SUPPORT. Sys2Proof/Laws/Stream.lean: how runs of events go together. -/

namespace Sys2Proof.Machine

@[simp] theorem runEvents_nil (s : State) : runEvents [] s = some (s, []) := rfl

/-- The first event of a run that does not stop, and the rest of it. -/
theorem runEvents_cons_eq_some {i : Instr} {is : List Instr} {s t : State} {os : List (Option Verdict)} :
    runEvents (i :: is) s = some (t, os) ↔
      ∃ u os', exec i s = .next u ∧ runEvents is u = some (t, os') ∧ os = u.out :: os' := by
  simp only [runEvents]
  cases h : exec i s with
  | next u =>
    constructor
    · intro e
      obtain ⟨r, hr, hr'⟩ := Option.map_eq_some_iff.1 e
      cases hr'
      exact ⟨u, r.2, rfl, hr, rfl⟩
    · rintro ⟨u', os', hu, hr, rfl⟩
      cases hu
      simp [hr]
  | fault e => simp
  | refused r => simp

/-- A run over two sequences is the run over the first and then over the second. -/
theorem runEvents_append (is js : List Instr) (s : State) :
    runEvents (is ++ js) s =
      (runEvents is s).bind fun r => (runEvents js r.1).map fun q => (q.1, r.2 ++ q.2) := by
  induction is generalizing s with
  | nil => simp [runEvents]
  | cons i is ih =>
    simp only [List.cons_append, runEvents]
    cases exec i s with
    | next t => simp only [ih]; cases runEvents is t <;> simp [Function.comp_def]
    | fault e => rfl
    | refused r => rfl

/-- A run has one output for each event. -/
theorem runEvents_length {is : List Instr} {s t : State} {os : List (Option Verdict)} (h : runEvents is s = some (t, os)) :
    os.length = is.length := by
  induction is generalizing s os with
  | nil => cases h; rfl
  | cons i is ih =>
    obtain ⟨u, os', _, hr, rfl⟩ := runEvents_cons_eq_some.1 h
    simp [ih hr]

/-- The last event of a run that does not stop. -/
theorem runEvents_snoc_eq_some {is : List Instr} {i : Instr} {s t : State} {os : List (Option Verdict)} :
    runEvents (is ++ [i]) s = some (t, os) ↔
      ∃ u os', runEvents is s = some (u, os') ∧ exec i u = .next t ∧ os = os' ++ [t.out] := by
  rw [runEvents_append]
  constructor
  · intro h
    obtain ⟨r, hr, h⟩ := Option.bind_eq_some_iff.1 h
    obtain ⟨q, hq, e⟩ := Option.map_eq_some_iff.1 h
    obtain ⟨u, os', hu, hn, ho⟩ := runEvents_cons_eq_some.1 (show runEvents [i] r.1 = some (q.1, q.2) from hq)
    cases hn
    cases e
    exact ⟨r.1, r.2, hr, hu, by rw [ho]⟩
  · rintro ⟨u, os', hr, hx, rfl⟩
    simp [hr, runEvents, hx]

end Sys2Proof.Machine
end

