-- ==== Sys2Proof/Tests/Slice0.lean ====
section
/-! SUPPORT. Sys2Proof/Tests/Slice0.lean: small tests, each expected result taken from spec/ (95_test_vectors.md, or the rule named), and
for every statement with hypotheses a theorem `witness_<statement>` that meets them. -/

namespace Sys2Proof.Tests

open Sys2Proof Sys2Proof.Machine

/-- The state that has collected `bs` since the last clear. -/
def holding (bs : List Byte) : State :=
  { len := Fin.ofNat 24 (min bs.length 23), buf := (bs.take 22).mapIdx fun k b => (k, b), out := none, cause := none, input := [] }

/-- The next state, if there is one. -/
def nextOf (o : Host.Outcome State Fault Refusal) : Option State :=
  match o with
  | .next s => some s
  | .fault _ => none
  | .refused _ => none

/-- Reference frame A of 95_test_vectors.md. -/
def frameA : Frame := #v[0xFA, 0xA0, 0, 0, 0, 0, 0, 0, 0, 0, 0, 0, 0, 0, 0, 0, 0, 0, 0, 0, 0x83, 0x76]

/-- Reference frame B of 95_test_vectors.md. -/
def frameB : Frame :=
  #v[0xFA, 0xB3, 0x2D, 0x4B, 0x03, 0x14, 0x25, 0x36, 0x47, 0x58, 0x69, 0x7A, 0x8B, 0x9C, 0xAD, 0xBE, 0xCF, 0xE0, 0xF1, 0x02, 0x98, 0x02]

/-- Reference frame C of 95_test_vectors.md. -/
def frameC : Frame :=
  #v[0xFA, 0xC1, 0x7A, 0xD4, 0xB1, 0x29, 0x84, 0x05, 0x34, 0xF3, 0xF3, 0x87, 0x5C, 0x25, 0xB0, 0x8B, 0xEA, 0x06, 0xC2, 0x87, 0x98, 0x01]

/-- 22 bytes that are no marker: a leading segment that is judged (40_synchronizer.md R89 (c)). -/
def leading22 : List Byte := List.replicate 22 0x01

/-! ### Syntax and encoding -/

/-- R60: `DATA(b)` needs `b != 0xFA`. -/
theorem test_dataOfMarker_illFormed : (Instr.data 0xFA).wellFormed = false := by decide
theorem test_dataNextToMarker_wellFormed : (Instr.data 0xFB).wellFormed = true ∧ (Instr.data 0xF9).wellFormed = true := by decide

/-- The words of 30_encoding.md R62 and opcode_table.json, bit by bit: rst, valid, eos, data. -/
theorem test_decode_reset : decode 0b1_0_0_00000000#11 = .reset ∧ decode 0b1_1_1_11111010#11 = .reset := by decide
theorem test_decode_idle : decode 0b0_0_0_00000000#11 = .idle ∧ decode 0b0_0_1_11111010#11 = .idle := by decide
theorem test_decode_eos : decode 0b0_1_1_00000000#11 = .eos ∧ decode 0b0_1_1_11111010#11 = .eos := by decide
theorem test_decode_mark : decode 0b0_1_0_11111010#11 = .mark := by decide
theorem test_decode_data : decode 0b0_1_0_10100000#11 = .data 0xA0 ∧ decode 0b0_1_0_01011111#11 = .data 0x5F := by decide
theorem test_decodeTableWord : decodeTableWord 16 0x400 = some .reset ∧ decodeTableWord 16 0x2FA = some .mark ∧
    decodeTableWord 11 0x200 = some (.data 0) ∧ decodeTableWord 16 0x800 = none := by decide

/-- 60_exceptions.md R142's table of codes. -/
theorem test_cause_codes : [Cause.noCause, .lengthMismatch, .badMarker, .indexOutOfRange, .checksumMismatch].map causeCode = [0, 1, 2, 3, 4] := by
  decide

/-! ### One step -/

/-- 70 R170's example: `LEN = 13`, RESET. -/
theorem test_reset_midFrame : (nextOf (exec .reset (holding (List.replicate 13 5)))).map (fun t => (t.len.val, t.out)) = some (0, none) := by decide
/-- 40 R81's example: `LEN = 7`, IDLE. -/
theorem test_idle_keeps : (nextOf (exec .idle (holding (List.replicate 7 5)))).map (fun t => (t.len.val, t.candidate)) =
    some (7, List.replicate 7 5) := by decide
/-- 40 R84's example: `LEN = 22`, EOS. -/
theorem test_eos_losesFullFrame : (nextOf (exec .eos (holding frameA.toList))).map (fun t => (t.len.val, t.out, t.cause)) =
    some (0, none, none) := by decide
/-- 40 R83's example: frame A, MARK. -/
theorem test_mark_emitsValid : (nextOf (exec .mark (holding frameA.toList))).map (fun t => (t.out, t.len.val, t.candidate)) =
    some (some ⟨frameA, true⟩, 1, [0xFA]) := by decide
/-- 95 S4: two markers in a row drop a candidate of length 1. -/
theorem test_mark_twice_drops : (nextOf (exec .mark (holding [0xFA]))).map (fun t => (t.out, t.cause, t.len.val)) =
    some (none, some .lengthMismatch, 1) := by decide
/-- 95 section 2, APPEND in isolation: `LEN` 21 stores, 22 only counts. -/
theorem test_data_atTwentyOne : (nextOf (exec (.data 0x76) (holding (frameA.toList.take 21)))).map (fun t => (t.len.val, Memory.read t.buf 21)) =
    some (22, some 0x76) := by decide
theorem test_data_atTwentyTwo : (nextOf (exec (.data 0x55) (holding frameA.toList))).map (fun t => (t.len.val, t.candidate)) =
    some (23, frameA.toList) := by decide
/-- `step` runs the word presented first. -/
theorem test_step_presented : (nextOf (step (State.reset.withFetchWord 16 0x2A0))).map (·.candidate) = some [0xA0] := by decide
/-- 95 S7: the trace row of a MARK after 22 leading bytes. -/
theorem test_trace_badMarker : (traceEvents [.mark] (holding leading22)).map (fun r => (r.lenBefore, r.lenAfter, r.cause, r.dropped)) =
    [(22, 1, some .badMarker, none)] := by decide

/-! ### Checksum and Validator (95 sections 3 and 4) -/

theorem test_checksum_CK1 : accumulateOf 32 (blockOf frameA) = 0x0141F400 ∧ checksum (blockOf frameA) = 0x7683 := by decide
theorem test_checksum_CK5 : accumulateOf 32 (blockOf frameC) = 0x02997C66 ∧ checksum (blockOf frameC) = 0x0198 := by decide
theorem test_checksum_CK7 : accumulateOf 32 (blockOf frameB) = 0x01E6FECB ∧ checksum (blockOf frameB) = 0x0298 := by decide
theorem test_checksum_CK10 : checksum (((Vector.replicate 20 0).set 18 0xFF).set 19 0x7F) = 0x7FFF := by decide
theorem test_validate_ABC : validate frameA = accept ∧ validate frameB = accept ∧ validate frameC = accept := by decide
theorem test_validate_V12 : validate (frameA.set 21 0xF6) = ⟨false, .checksumMismatch⟩ := by decide
theorem test_validate_V17 : validate (Vector.replicate 22 0) = ⟨false, .badMarker⟩ := by decide
theorem test_validate_V19 : validate ((Vector.replicate 22 0).set 0 0xFA) = ⟨false, .indexOutOfRange⟩ := by decide
theorem test_pack_frameB : validateBlock (packFrame frameB) = true ∧ unpackFrame (packFrame frameB) = frameB := by decide
theorem test_frameLiteral_A : frameLiteral 0xA0 (Vector.replicate 18 0) = frameA := by decide

/-! ### Witnesses: the hypotheses of each statement can be met -/

theorem witness_DecodeFollowsThePriorityList :
    (0x7FF : EventWord).getLsbD 10 = true ∧
    ((0x1FF : EventWord).getLsbD 10 = false ∧ (0x1FF : EventWord).getLsbD 9 = false) ∧
    ((0x3FF : EventWord).getLsbD 10 = false ∧ (0x3FF : EventWord).getLsbD 9 = true ∧ (0x3FF : EventWord).getLsbD 8 = true) ∧
    ((0x2FA : EventWord).getLsbD 10 = false ∧ (0x2FA : EventWord).getLsbD 9 = true ∧ (0x2FA : EventWord).getLsbD 8 = false ∧
      (0x2FA : EventWord).extractLsb' 0 8 = 0xFA#8) ∧
    ((0x2FB : EventWord).getLsbD 10 = false ∧ (0x2FB : EventWord).getLsbD 9 = true ∧ (0x2FB : EventWord).getLsbD 8 = false ∧
      (0x2FB : EventWord).extractLsb' 0 8 ≠ 0xFA#8) := by decide
theorem witness_DecodeOfEncodeIsTheEvent : [Instr.reset, .idle, .eos, .mark, .data 0, .data 0xFF].all Instr.wellFormed = true := by decide
theorem witness_StepRunsTheDecodedEvent : (presentEvent State.reset 0x2FA).input = 0x2FA :: [] := by decide
theorem witness_StepWithNothingPresentedIsIdle : State.reset.input = [] := by decide
theorem witness_StepsOverPresentedWordsAreTheEventRun :
    (runEvents ([(0x2FA : EventWord), 0x201, 0x000].map decode) { holding [1] with input := [] }).isSome = true := by decide
theorem witness_LenAfterEachEvent : ∀ i ∈ [Instr.reset, .idle, .eos, .mark, .data 7],
    (nextOf (exec i (holding frameA.toList))).isSome = true ∧ (nextOf (exec i (holding (leading22 ++ [1])))).isSome = true := by decide
theorem witness_PhaseTransitions : ∀ i ∈ [Instr.reset, .idle, .eos, .mark, .data 7],
    (nextOf (exec i State.reset)).isSome = true ∧ (nextOf (exec i (holding frameA.toList))).isSome = true := by decide
theorem witness_ResetEmptiesTheBuffer : State.reset.Filled ∧ State.reset.len.val = 0 := by decide
theorem witness_EosDiscardsTheCandidate : State.reset.Filled ∧ State.reset.len.val = 0 := by decide
theorem witness_IdleChangesNothing : (runEvents ([.mark] ++ [.data 1]) State.reset).isSome = true := by decide
theorem witness_IdleStepsAreInvisible : (runEvents [.mark, .idle, .data 1] State.reset).isSome = true := by decide
theorem witness_AppendStoresCountsSaturates : (holding []).len.val ≤ 21 ∧ (holding (leading22.take 21)).len.val ≤ 21 ∧
    (holding leading22).len.val = 22 ∧ (holding (1 :: leading22)).len.val = 23 := by decide
theorem witness_DataFrame :
    (nextOf (exec (.data 7) (holding (leading22.take 21)))).isSome = true ∧ appendOffset (holding (leading22.take 21)) = some 21 ∧
    (nextOf (exec (.data 7) (holding leading22))).isSome = true ∧ appendOffset (holding leading22) = none := by decide
theorem witness_ClearingEventsFrame : ∀ i ∈ [Instr.reset, .eos, .mark],
    (nextOf (exec i (holding []))).isSome = true ∧ (nextOf (exec i (holding [0xFA, 1]))).isSome = true := by decide
theorem witness_FlushJudgesOrDropsThenClears :
    (holding frameA.toList).len.val = 22 ∧ snapshot (holding frameA.toList) = .ok frameA ∧ (holding (leading22.take 21)).len.val ≠ 22 :=
  ⟨by decide, rfl, by decide⟩
theorem witness_MarkFlushesThenStartsAnew :
    (holding []).len.val = 0 ∧ ((holding (1 :: leading22)).len.val ≠ 0 ∧ (holding (1 :: leading22)).len.val ≠ 22) ∧
    (holding frameA.toList).len.val = 22 ∧ ∀ k : Fin 22, Memory.read (holding frameA.toList).buf k.val = some frameA[k.val] := by decide
theorem witness_LengthFilterDropsOtherLengths :
    (holding [0xFA]).len.val = 1 ∧ (holding (leading22.take 21)).len.val = 21 ∧ (holding (1 :: leading22)).len.val = 23 ∧
    (holding [0xFA]).input = (holding (1 :: leading22)).input ∧
    (nextOf (exec .mark (holding [0xFA]))).map (·.cause) = some (some .lengthMismatch) := by decide
theorem witness_OneCauseByPriority :
    snapshot (holding frameA.toList) = .ok frameA ∧
    (nextOf (exec .mark (holding frameA.toList))).map (·.cause) = some (some .noCause) ∧
    (nextOf (exec .mark (holding leading22))).map (·.cause) = some (some .badMarker) ∧
    (nextOf (exec .mark (holding [0xFA]))).map (·.cause) = some (some .lengthMismatch) := ⟨rfl, by decide⟩
theorem witness_RejectionLeavesNoTraceInTheState :
    (holding frameA.toList).Filled ∧ (holding [0xFA]).Filled ∧ (nextOf (exec .mark (holding frameA.toList))).isSome = true ∧
    (nextOf (exec .mark (holding [0xFA]))).isSome = true := by decide
theorem witness_MarkFaultsOnAByteWithoutValue :
    let s := { holding frameA.toList with buf := (holding frameA.toList).buf.take 21 }
    s.len.val = 22 ∧ Memory.read s.buf 21 = none ∧ ∀ j, j < 21 → Memory.read s.buf j ≠ none := by decide
theorem witness_OnlyMarkAtTwentyTwoEmits :
    (nextOf (exec .mark (holding frameA.toList))).map (·.out) = some (some ⟨frameA, true⟩) := by decide
theorem witness_WrongMarkerIsRejectedFirst : (frameA.set 0 0xFB)[0] ≠ 0xFA#8 ∧ frameA[0] = 0xFA#8 := by decide
theorem witness_IndexOutOfRangeIsRejected :
    ((frameA.set 1 0x9F)[0] = 0xFA#8 ∧ (frameA.set 1 0x9F)[1].toNat < 0xA0) ∧
    ((frameA.set 1 0xFA)[0] = 0xFA#8 ∧ 0xF9 < (frameA.set 1 0xFA)[1].toNat) ∧
    (0xA0 ≤ frameA[1].toNat ∧ frameA[1].toNat ≤ 0xF9) ∧ (0xA0 ≤ (frameA.set 1 0xF9)[1].toNat ∧ (frameA.set 1 0xF9)[1].toNat ≤ 0xF9) := by
  decide
theorem witness_StoredChecksumIsCompared :
    frameA[0] = 0xFA#8 ∧ (0xA0 ≤ frameA[1].toNat ∧ frameA[1].toNat ≤ 0xF9) ∧ (validate frameA).ok = true ∧ frameA[20] ≠ frameA[21] := by
  decide
theorem witness_StoredBitFifteenIsNeverValid :
    0x80 ≤ (frameA.set 21 0x80)[21].toNat ∧ (frameA.set 21 0x80)[0] = 0xFA#8 ∧
    (0xA0 ≤ (frameA.set 21 0x80)[1].toNat ∧ (frameA.set 21 0x80)[1].toNat ≤ 0xF9) := by decide
theorem witness_AnyOneByteChangeInvalidatesAFrame : (validate frameA).ok = true ∧ (0x77 : Byte) ≠ frameA[21] ∧ (0xFB : Byte) ≠ frameA[0] := by
  decide
theorem witness_FoldShiftsAndAdds : 0 < 10 ∧ 9 < 10 := by decide
theorem witness_TwentySixBitsSuffice : 26 ≤ 26 ∧ 25 < 26 := by decide
theorem witness_ReduceFoldsOnceAndMasksTwice : (0x03FEFC01 : BitVec 32).toNat ≤ 67042305 := by decide
theorem witness_ChecksumCongruence :
    (accumulateOf 32 (blockOf frameA)).toNat % 2 ^ 15 + (accumulateOf 32 (blockOf frameA)).toNat / 2 ^ 15 < 0x8000 ∧
    0x8000 ≤ (accumulateOf 32 (blockOf frameC)).toNat % 2 ^ 15 + (accumulateOf 32 (blockOf frameC)).toNat / 2 ^ 15 := by decide
theorem witness_AnyOneByteChangesTheChecksum : (1 : Byte) ≠ (blockOf frameA)[19] ∧ (0xFB : Byte) ≠ (blockOf frameA)[0] := by decide
theorem witness_SixteenBitReadsSeeTheAppendedBytes : snapshot (holding frameB.toList) = .ok frameB := rfl
theorem witness_OnlyBytesOfTheCandidateHoldAValue :
    (holding []).Filled ∧ (holding [0xFA, 1]).Filled ∧ (holding frameA.toList).Filled ∧ (holding (1 :: leading22)).Filled := by decide
theorem witness_OutputPinsCarryTheVerdict :
    (runEvents ([InPins.mk false true false 0xFA, ⟨false, false, false, 0⟩].map fun p => decode (pinWord p)) (holding frameA.toList)).map
      (fun r => r.2.map Option.isSome) = some [true, false] := by decide
theorem witness_EveryStepKeepsTheInvariant :
    (presentEvent (holding frameA.toList) 0x2FA).Inv ∧ (nextOf (step (presentEvent (holding frameA.toList) 0x2FA))).isSome = true := by decide
theorem witness_InvariantStatesAlwaysAnswer : (holding frameA.toList).Inv ∧ ∀ i ∈ [Instr.mark, .data 1], i.WellFormed := by decide
theorem witness_EveryStepKeepsMemoryCanonical :
    (presentEvent (holding [0xFA, 1]) 0x207).buf.wf ∧ (nextOf (step (presentEvent (holding [0xFA, 1]) 0x207))).isSome = true := by decide
theorem witness_BufferByHistory :
    (∀ is ∈ [[Instr.mark, .data 1], [.mark, .eos, .data 1], [.mark, .reset, .idle]],
      (∀ i ∈ is, i.WellFormed) ∧ (runEvents is State.reset).isSome = true) ∧
    Instr.mark ∈ sinceClear [.mark, .data 1] ∧ Instr.mark ∉ sinceClear [.mark, .eos, .data 1] ∧
    sinceClear [.mark, .reset, .idle] = [.idle] := by decide
theorem witness_PipelineFramesHoldNoInnerMarker :
    (holding frameA.toList).Inv ∧ (nextOf (exec .mark (holding frameA.toList))).map (·.out) = some (some ⟨frameA, true⟩) := by decide
theorem witness_FramingHealsAtAMarker :
    (holding frameA.toList).Filled ∧ (holding [1]).Filled ∧
    ((nextOf (exec .mark (holding frameA.toList))).bind (runEvents [.data 1])).isSome = true ∧
    ((nextOf (exec .mark (holding [1]))).bind (runEvents [.data 1])).isSome = true := by decide
theorem witness_VerdictsAreTwentyTwoStepsApart :
    (((nextOf (exec .mark State.reset)).bind (runEvents (List.replicate 21 (.data 1) ++ [.mark]))).map fun r => r.2[21]?.map Option.isSome) =
      some (some true) := by decide +kernel
theorem witness_BadMarkerOnlyForTheLeadingSegment :
    ((runEvents ((leading22 ++ [0xFA]).map eventOfByte) State.reset).map fun r => r.2[22]?.map fun o => o.map fun v => decide (v.frame[0] ≠ 0xFA#8)) =
      some (some (some true)) := by decide +kernel
theorem witness_GrowableBufferIsSimulated : Tracks frameA.toList (holding frameA.toList) := ⟨by decide, by decide⟩
theorem witness_EveryByteKeepsTheStreamsCandidate :
    TracksStream [1, 0xFA, 2] (holding [0xFA, 2]) ∧ TracksStream leading22 (holding leading22) :=
  ⟨⟨by decide, by decide⟩, ⟨by decide, by decide⟩⟩

end Sys2Proof.Tests
end

