-- ==== Sys2Proof/Proofs/Encoding.lean ====
section
/-! Sys2Proof/Proofs/Encoding.lean: the event word (30_encoding.md R60, R62). A word is `eventWord` of its four fields, so a mask is a
condition on each field and a word's number is the fields weighted by their places; the decoder is said once in terms of the fields. -/

namespace Sys2Proof

/-! ### The fields of an event word -/

theorem getLsbD_eventWord (r v e : Bool) (d : Byte) (i : Nat) :
    (eventWord r v e d).getLsbD i =
      if i < 8 then d.getLsbD i else if i = 8 then e else if i = 9 then v else if i = 10 then r else false := by
  change BitVec.getLsbD (w := 1 + 1 + 1 + 8) (BitVec.ofBool r ++ BitVec.ofBool v ++ BitVec.ofBool e ++ d) i = _
  simp only [BitVec.getLsbD_append, BitVec.getLsbD_ofBool]
  by_cases hd : i < 8
  · simp [hd]
  · obtain ⟨j, rfl⟩ := Nat.exists_eq_add_of_le' (Nat.le_of_not_lt hd)
    match j with
    | 0 | 1 | 2 | j + 3 => simp

@[simp] theorem evRst_eventWord (r v e : Bool) (d : Byte) : evRst (eventWord r v e d) = r :=
  getLsbD_eventWord r v e d 10

@[simp] theorem evValid_eventWord (r v e : Bool) (d : Byte) : evValid (eventWord r v e d) = v :=
  getLsbD_eventWord r v e d 9

@[simp] theorem evEos_eventWord (r v e : Bool) (d : Byte) : evEos (eventWord r v e d) = e :=
  getLsbD_eventWord r v e d 8

@[simp] theorem evData_eventWord (r v e : Bool) (d : Byte) : evData (eventWord r v e d) = d := by
  ext i hi
  simp [evData, getLsbD_eventWord, hi]

/-- Two words are equal if their fields are. -/
theorem eventWord_ext {w w' : EventWord} (hr : evRst w = evRst w') (hv : evValid w = evValid w') (he : evEos w = evEos w')
    (hd : evData w = evData w') : w = w' := by
  apply BitVec.eq_of_getLsbD_eq
  intro i hi
  by_cases h8 : i < 8
  · simpa [evData, h8] using congrArg (BitVec.getLsbD · i) hd
  · obtain rfl | rfl | rfl : i = 8 ∨ i = 9 ∨ i = 10 := by omega
    · exact he
    · exact hv
    · exact hr

/-- Every word is made of its fields. -/
theorem eventWord_fields (w : EventWord) : eventWord (evRst w) (evValid w) (evEos w) (evData w) = w := by
  apply eventWord_ext <;> simp

theorem eventWord_inj {r v e r' v' e' : Bool} {d d' : Byte} :
    eventWord r v e d = eventWord r' v' e' d' ↔ r = r' ∧ v = v' ∧ e = e' ∧ d = d' := by
  constructor
  · intro h
    exact ⟨by simpa using congrArg evRst h, by simpa using congrArg evValid h, by simpa using congrArg evEos h,
      by simpa using congrArg evData h⟩
  · rintro ⟨rfl, rfl, rfl, rfl⟩
    rfl

/-- A mask acts field by field. -/
theorem eventWord_and (r v e r' v' e' : Bool) (d d' : Byte) :
    eventWord r v e d &&& eventWord r' v' e' d' = eventWord (r && r') (v && v') (e && e') (d &&& d') := by
  unfold eventWord
  rw [← BitVec.ofBool_and_ofBool, ← BitVec.ofBool_and_ofBool, ← BitVec.ofBool_and_ofBool, ← BitVec.and_append, ← BitVec.and_append]
  exact BitVec.and_append

/-- A row of R62's table asks one thing of each field. -/
theorem and_eventWord_eq_iff (w : EventWord) (mr mv me : Bool) (md : Byte) (r v e : Bool) (d : Byte) :
    w &&& eventWord mr mv me md = eventWord r v e d ↔
      (evRst w && mr) = r ∧ (evValid w && mv) = v ∧ (evEos w && me) = e ∧ evData w &&& md = d := by
  rw [← eventWord_inj, ← eventWord_and, eventWord_fields]

theorem toNat_append_eq_add {m n : Nat} (x : BitVec m) (y : BitVec n) : (x ++ y).toNat = 2 ^ n * x.toNat + y.toNat := by
  rw [BitVec.toNat_append, ← Nat.shiftLeft_add_eq_or_of_lt y.isLt, Nat.shiftLeft_eq, Nat.mul_comm]

theorem toNat_eventWord (r v e : Bool) (d : Byte) :
    (eventWord r v e d).toNat = 1024 * r.toNat + 512 * v.toNat + 256 * e.toNat + d.toNat := by
  simp only [eventWord, toNat_append_eq_add, BitVec.toNat_ofBool]
  omega

/-- A word's number is its fields weighted by their places; with the fields' bounds, for `omega`. -/
theorem toNat_eq_fields (w : EventWord) :
    w.toNat = 1024 * (evRst w).toNat + 512 * (evValid w).toNat + 256 * (evEos w).toNat + (evData w).toNat ∧
      (evRst w).toNat ≤ 1 ∧ (evValid w).toNat ≤ 1 ∧ (evEos w).toNat ≤ 1 ∧ (evData w).toNat < 256 :=
  ⟨by rw [← toNat_eventWord, eventWord_fields], Bool.toNat_le _, Bool.toNat_le _, Bool.toNat_le _, (evData w).isLt⟩

/-! ### Decoding by fields -/

/-- R62's list: the fields of each kind of word, and the event it decodes to. -/
theorem decode_cases (w : EventWord) :
    (evRst w = true ∧ decode w = .reset) ∨
    (evRst w = false ∧ evValid w = false ∧ decode w = .idle) ∨
    (evRst w = false ∧ evValid w = true ∧ evEos w = true ∧ decode w = .eos) ∨
    (evRst w = false ∧ evValid w = true ∧ evEos w = false ∧ evData w = 0xFA#8 ∧ decode w = .mark) ∨
    (evRst w = false ∧ evValid w = true ∧ evEos w = false ∧ evData w ≠ 0xFA#8 ∧ decode w = .data (evData w)) := by
  cases hr : evRst w with
  | true => simp [decode, hr]
  | false =>
    cases hv : evValid w with
    | false => simp [decode, hr, hv]
    | true =>
      cases he : evEos w with
      | true => simp [decode, hr, hv, he]
      | false => by_cases hd : evData w = 0xFA#8 <;> simp [decode, Config.startMarker, hr, hv, he, hd]

theorem decode_eq_reset_iff (w : EventWord) : decode w = .reset ↔ evRst w = true := by
  rcases decode_cases w with h | h | h | h | h <;> simp [h]

theorem decode_eq_idle_iff (w : EventWord) : decode w = .idle ↔ evRst w = false ∧ evValid w = false := by
  rcases decode_cases w with h | h | h | h | h <;> simp [h]

theorem decode_eq_eos_iff (w : EventWord) : decode w = .eos ↔ evRst w = false ∧ evValid w = true ∧ evEos w = true := by
  rcases decode_cases w with h | h | h | h | h <;> simp [h]

theorem decode_eq_mark_iff (w : EventWord) :
    decode w = .mark ↔ evRst w = false ∧ evValid w = true ∧ evEos w = false ∧ evData w = 0xFA#8 := by
  rcases decode_cases w with h | h | h | h | h <;> simp [h]

theorem decode_eq_data_iff (w : EventWord) (b : Byte) :
    decode w = .data b ↔ evRst w = false ∧ evValid w = true ∧ evEos w = false ∧ evData w ≠ 0xFA#8 ∧ evData w = b := by
  rcases decode_cases w with h | h | h | h | h <;> simp [h]

/-! ### The rows of R62's table -/

theorem decode_eq_reset_iff_mask (w : EventWord) : decode w = .reset ↔ w &&& 0x400#11 = 0x400#11 := by
  have row : w &&& 0x400#11 = 0x400#11 ↔ _ := and_eventWord_eq_iff w true false false 0 true false false 0
  simp [decode_eq_reset_iff, row]

theorem decode_eq_idle_iff_mask (w : EventWord) : decode w = .idle ↔ w &&& 0x600#11 = 0x000#11 := by
  have row : w &&& 0x600#11 = 0x000#11 ↔ _ := and_eventWord_eq_iff w true true false 0 false false false 0
  simp [decode_eq_idle_iff, row]

theorem decode_eq_eos_iff_mask (w : EventWord) : decode w = .eos ↔ w &&& 0x700#11 = 0x300#11 := by
  have row : w &&& 0x700#11 = 0x300#11 ↔ _ := and_eventWord_eq_iff w true true true 0 false true true 0
  simp [decode_eq_eos_iff, row]

theorem decode_eq_mark_iff_mask (w : EventWord) : decode w = .mark ↔ w &&& 0x7FF#11 = 0x2FA#11 := by
  have row : w &&& 0x7FF#11 = 0x2FA#11 ↔ _ := and_eventWord_eq_iff w true true true 0xFF false true false 0xFA
  have hd : evData w &&& 0xFF#8 = evData w := BitVec.and_allOnes
  simp [decode_eq_mark_iff, row, hd]

/-- MARK has one encoding. -/
theorem decode_eq_mark_iff_eq (w : EventWord) : decode w = .mark ↔ w = 0x2FA#11 := by
  rw [decode_eq_mark_iff_mask, show 0x7FF#11 = BitVec.allOnes 11 from rfl, BitVec.and_allOnes]

/-- The pattern of DATA's row, which MARK's word has as well. -/
theorem and_dataMask_eq_iff (w : EventWord) :
    w &&& 0x700#11 = 0x200#11 ↔ evRst w = false ∧ evValid w = true ∧ evEos w = false := by
  have row : w &&& 0x700#11 = 0x200#11 ↔ _ := and_eventWord_eq_iff w true true true 0 false true false 0
  simp [row]

theorem exists_decode_eq_data_iff_mask (w : EventWord) :
    (∃ b, decode w = .data b) ↔ w &&& 0x700#11 = 0x200#11 ∧ w ≠ 0x2FA#11 := by
  rw [and_dataMask_eq_iff, Ne, ← decode_eq_mark_iff_eq, decode_eq_mark_iff]
  simp only [decode_eq_data_iff, exists_and_left, exists_eq', and_true]
  tauto

/-! ### The numbers of an event's words -/

theorem decode_eq_reset_iff_toNat (w : EventWord) : decode w = .reset ↔ w.toNat ∈ Finset.Ico 1024 2048 := by
  have hw := toNat_eq_fields w
  rw [decode_eq_reset_iff, ← Bool.toNat_eq_one, Finset.mem_Ico]
  omega

theorem decode_eq_idle_iff_toNat (w : EventWord) : decode w = .idle ↔ w.toNat ∈ Finset.Ico 0 512 := by
  have hw := toNat_eq_fields w
  rw [decode_eq_idle_iff, ← Bool.toNat_eq_zero, ← Bool.toNat_eq_zero, Finset.mem_Ico]
  omega

theorem decode_eq_eos_iff_toNat (w : EventWord) : decode w = .eos ↔ w.toNat ∈ Finset.Ico 768 1024 := by
  have hw := toNat_eq_fields w
  rw [decode_eq_eos_iff, ← Bool.toNat_eq_zero, ← Bool.toNat_eq_one, ← Bool.toNat_eq_one, Finset.mem_Ico]
  omega

theorem decode_eq_mark_iff_toNat (w : EventWord) : decode w = .mark ↔ w.toNat ∈ ({0x2FA} : Finset Nat) := by
  rw [decode_eq_mark_iff_eq, Finset.mem_singleton, ← BitVec.toNat_inj]
  rfl

theorem decode_eq_data_iff_toNat (w : EventWord) :
    decode w = .data (evData w) ↔ w.toNat ∈ (Finset.Ico 512 768).erase 0x2FA := by
  have hw := toNat_eq_fields w
  rw [decode_eq_data_iff, eq_self, and_true, Ne, ← BitVec.toNat_inj, ← Bool.toNat_eq_zero, ← Bool.toNat_eq_one,
    ← Bool.toNat_eq_zero, Finset.mem_erase, Finset.mem_Ico, BitVec.toNat_ofNat]
  omega

/-- A property holds of as many words as the set of their numbers has members. -/
theorem countP_words_eq_card {p : EventWord → Bool} {S : Finset Nat} (h : ∀ w, p w = true ↔ w.toNat ∈ S)
    (hS : S ⊆ Finset.Ico 0 2048) : (List.range 2048).countP (fun n => p (BitVec.ofNat 11 n)) = S.card := by
  have hfilter : S = (Finset.range 2048).filter (fun n => p (BitVec.ofNat 11 n) = true) := by
    rw [← Finset.inter_eq_right.2 hS, ← Finset.filter_mem_eq_inter, ← Finset.range_eq_Ico]
    refine Finset.filter_congr fun n hn => ?_
    rw [h, BitVec.toNat_ofNat, Nat.mod_eq_of_lt (Finset.mem_range.1 hn)]
  rw [hfilter, ← Nat.count_eq_card_filter_range]
  simp only [Nat.count, Bool.decide_eq_true]

theorem count_reset_words : (List.range 2048).countP (fun n => decode (BitVec.ofNat 11 n) == .reset) = 1024 := by
  rw [countP_words_eq_card (p := (decode · == .reset)) (fun w => beq_iff_eq.trans (decode_eq_reset_iff_toNat w))
    (Finset.Ico_subset_Ico (by omega) (by omega)), Nat.card_Ico]

theorem count_idle_words : (List.range 2048).countP (fun n => decode (BitVec.ofNat 11 n) == .idle) = 512 := by
  rw [countP_words_eq_card (p := (decode · == .idle)) (fun w => beq_iff_eq.trans (decode_eq_idle_iff_toNat w))
    (Finset.Ico_subset_Ico (by omega) (by omega)), Nat.card_Ico]

theorem count_eos_words : (List.range 2048).countP (fun n => decode (BitVec.ofNat 11 n) == .eos) = 256 := by
  rw [countP_words_eq_card (p := (decode · == .eos)) (fun w => beq_iff_eq.trans (decode_eq_eos_iff_toNat w))
    (Finset.Ico_subset_Ico (by omega) (by omega)), Nat.card_Ico]

theorem count_mark_words : (List.range 2048).countP (fun n => decode (BitVec.ofNat 11 n) == .mark) = 1 := by
  rw [countP_words_eq_card (p := (decode · == .mark)) (fun w => beq_iff_eq.trans (decode_eq_mark_iff_toNat w)) (by simp),
    Finset.card_singleton]

theorem count_data_words :
    (List.range 2048).countP (fun n => decode (BitVec.ofNat 11 n) == .data (evData (BitVec.ofNat 11 n))) = 255 := by
  rw [countP_words_eq_card (p := fun w => decode w == .data (evData w)) (fun w => beq_iff_eq.trans (decode_eq_data_iff_toNat w))
    ((Finset.erase_subset _ _).trans (Finset.Ico_subset_Ico (by omega) (by omega))),
    Finset.card_erase_of_mem (by simp), Nat.card_Ico]

/-- Settles O1: the list and the masks by the word's fields, the counts by the word's number. -/
theorem decodeFollowsThePriorityList : Obligations.DecodeFollowsThePriorityList := by
  refine ⟨fun w => ⟨?reset, ?idle, ?eos, ?mark, ?data⟩, fun w => ?masks, ?counts⟩
  case reset => exact (decode_eq_reset_iff w).2
  case idle => exact fun hr hv => (decode_eq_idle_iff w).2 ⟨hr, hv⟩
  case eos => exact fun hr hv he => (decode_eq_eos_iff w).2 ⟨hr, hv, he⟩
  case mark => exact fun hr hv he hd => (decode_eq_mark_iff w).2 ⟨hr, hv, he, hd⟩
  case data => exact fun hr hv he hd => (decode_eq_data_iff w _).2 ⟨hr, hv, he, hd, rfl⟩
  case masks =>
    exact ⟨decode_eq_reset_iff_mask w, decode_eq_idle_iff_mask w, decode_eq_eos_iff_mask w, decode_eq_mark_iff_mask w,
      exists_decode_eq_data_iff_mask w⟩
  case counts => exact ⟨count_reset_words, count_idle_words, count_eos_words, count_mark_words, count_data_words⟩

end Sys2Proof
end

