-- ==== Sys2Proof/Proofs/Events.lean ====
section
/-! Sys2Proof/Proofs/Events.lean: one rule per operation of the synchronizer and per event (40_synchronizer.md R81 to R87): what
APPEND and the clear do to `LEN` and to the bytes read, what FLUSH and each event answer, and that an event's answer depends on
nothing but `BUF` and `LEN` (10_state.md R29). -/

namespace Sys2Proof.Machine

/-! ### `LEN` -/

theorem lenIsZero_iff {s : State} : s.lenIsZero = true ↔ s.len.val = 0 := beq_iff_eq.trans Fin.ext_iff

theorem lenIsFull_iff {s : State} : s.lenIsFull = true ↔ s.len.val = 22 := beq_iff_eq.trans Fin.ext_iff

/-- The lengths the length filter drops are those that are neither 0 nor 22 (R87). -/
theorem length_filtered_iff (s : State) :
    ((1 ≤ s.len.val ∧ s.len.val ≤ 21) ∨ s.len.val = 23) ↔ s.len.val ≠ 0 ∧ s.len.val ≠ 22 := by
  have := s.len.isLt
  omega

/-- APPEND never leaves an empty buffer. -/
theorem append_len_val_ne_zero (b : Byte) (s : State) : (append b s).len.val ≠ 0 := by
  rw [append_len, lenSucc_val]
  split <;> omega

theorem append_phase (b : Byte) (s : State) : (append b s).phase = .accumulating := by
  have h : ¬(append b s).lenIsZero = true := mt lenIsZero_iff.1 (append_len_val_ne_zero b s)
  simp [State.phase, h]

/-! ### Reads after APPEND and after the clear -/

/-- A read depends on what `BUF` lists at its offset alone. -/
theorem readByte_congr {s t : State} {k : Nat} (h : Memory.read s.buf k = Memory.read t.buf k) : readByte s k = readByte t k := by
  simp [readByte, h]

theorem snapshot_congr {s t : State} {f : Frame} (h : s.buf = t.buf) (hf : snapshot s = .ok f) : snapshot t = .ok f :=
  snapshot_eq_ok.2 fun k => (readByte_congr (by rw [h])).trans (snapshot_eq_ok.1 hf k)

/-- APPEND stores its byte at `LEN` while `LEN` is at most 21 (R85). -/
theorem readByte_append_same (b : Byte) {s : State} (h : s.len.val ≤ 21) : readByte (append b s) s.len.val = .ok b := by
  rw [readByte_eq_ok, append_buf, if_pos h]
  exact ⟨by omega, Memory.read_write_same ..⟩

/-- APPEND leaves every offset but `LEN` alone (R85). -/
theorem readByte_append_other (b : Byte) (s : State) {k : Nat} (h : k ≠ s.len.val) : readByte (append b s) k = readByte s k := by
  apply readByte_congr
  rw [append_buf]
  split
  · exact Memory.read_write_other _ _ h
  · rfl

/-- After the clear no byte of `BUF` holds a value (10_state.md R33). -/
theorem readByte_clear_ne_ok (s : State) (k : Nat) (b : Byte) : readByte (clear s) k ≠ .ok b := by
  simp [readByte_eq_ok]

/-- The first byte of a candidate: `LEN` becomes 1 and `BUF[0]` is the byte. -/
theorem append_to_empty (b : Byte) {s : State} (h : s.len.val = 0) :
    (append b s).len.val = 1 ∧ readByte (append b s) 0 = .ok b := by
  constructor
  · simp [lenSucc_val, h]
  · simpa [h] using readByte_append_same b (s := s) (by omega)

/-- A buffer filled to length 0 has no cell. -/
theorem buf_eq_nil_of_filled {s : State} (hf : s.Filled) (h : s.len.val = 0) : s.buf = [] := by
  have hoffsets : s.buf.map Prod.fst = List.range s.stored := hf
  rw [State.stored, h, Nat.zero_min, List.range_zero] at hoffsets
  exact List.map_eq_nil_iff.1 hoffsets

/-! ### FLUSH -/

/-- A candidate of 22 bytes is judged and reported, and the buffer is cleared (R86). -/
theorem flush_of_full {s : State} {f : Frame} (h : s.len.val = 22) (hf : snapshot s = .ok f) :
    flush s = .ok (clear (emitVerdict f (validate f) s)) := by
  simp [flush, lenIsFull_iff.2 h, hf]

/-- A candidate of any other length is dropped, and the buffer is cleared (R86, R87). -/
theorem flush_of_not_full {s : State} (h : s.len.val ≠ 22) : flush s = .ok (clear (dropCandidate .lengthMismatch s)) := by
  simp [flush, mt lenIsFull_iff.1 h]

/-- MARK runs FLUSH exactly where `LEN` is not 0 (R83). -/
theorem flushIfNonEmpty_eq (s : State) : flushIfNonEmpty s = if s.len.val = 0 then .ok (silent s) else flush s := by
  simp [flushIfNonEmpty, lenIsZero_iff]

/-- Nothing of a dropped candidate is kept but what the byte source presents next (R87). -/
theorem clear_dropCandidate_congr (c : Cause) {s s' : State} (h : s.input = s'.input) :
    clear (dropCandidate c s) = clear (dropCandidate c s') := by
  simp [clear, dropCandidate, h]

/-- The Validator never gives the length filter's label. -/
theorem validate_cause_ne_lengthMismatch (f : Frame) : (validate f).cause ≠ .lengthMismatch := by
  rcases validate_cases f with ⟨_, h⟩ | ⟨_, _, h⟩ | ⟨_, _, _, h⟩ | ⟨_, _, _, h⟩ <;> simp [h]

/-! ### What each event answers -/

@[simp] theorem exec_reset (s : State) : exec .reset s = .next (clear (silent s)) := rfl
@[simp] theorem exec_idle (s : State) : exec .idle s = .next (silent s) := rfl
@[simp] theorem exec_eos (s : State) : exec .eos s = .next (clear (silent s)) := rfl
@[simp] theorem exec_data (b : Byte) (s : State) : exec (.data b) s = .next (append b (silent s)) := rfl

/-- MARK appends the marker to what the flush leaves (R83). -/
theorem exec_mark_of_flush {s u : State} (h : flushIfNonEmpty s = .ok u) :
    exec .mark s = .next (append Config.startMarker u) := by
  simp [exec, execMark, h, Except.map, answer]

theorem exec_mark_of_empty {s : State} (h : s.len.val = 0) : exec .mark s = .next (append Config.startMarker (silent s)) :=
  exec_mark_of_flush (by rw [flushIfNonEmpty_eq, if_pos h])

theorem exec_mark_of_wrong_length {s : State} (h0 : s.len.val ≠ 0) (h22 : s.len.val ≠ 22) :
    exec .mark s = .next (append Config.startMarker (clear (dropCandidate .lengthMismatch s))) :=
  exec_mark_of_flush (by rw [flushIfNonEmpty_eq, if_neg h0, flush_of_not_full h22])

theorem exec_mark_of_full {s : State} {f : Frame} (h : s.len.val = 22) (hf : snapshot s = .ok f) :
    exec .mark s = .next (append Config.startMarker (clear (emitVerdict f (validate f) s))) :=
  exec_mark_of_flush (by rw [flushIfNonEmpty_eq, if_neg (by omega), flush_of_full h hf])

/-! ### States with the same `BUF` and `LEN` -/

theorem sameCore_append {s s' : State} (b : Byte) (h : State.SameCore s s') :
    State.SameCore (append b s) (append b s') := by
  obtain ⟨hlen, hbuf⟩ := h
  exact ⟨by simp only [append_len, hlen], by simp only [append_buf, hlen, hbuf]⟩

/-- An event answers the same from two states with the same `BUF` and `LEN`, up to what the byte source presents next. -/
theorem exec_of_sameCore {i : Instr} {s s' t : State} (h : State.SameCore s s') (ht : exec i s = .next t) :
    ∃ t', exec i s' = .next t' ∧ t'.out = t.out ∧ State.SameCore t t' := by
  obtain ⟨hlen, hbuf⟩ := h
  rcases exec_next_cases ht with ⟨rfl, rfl⟩ | ⟨rfl, rfl⟩ | ⟨rfl, rfl⟩ | ⟨b, rfl, rfl⟩ | ⟨rfl, h0, rfl⟩ | ⟨rfl, h0, h22, rfl⟩ |
    ⟨rfl, h22, f, hf, rfl⟩
  · exact ⟨_, exec_reset s', rfl, rfl, rfl⟩
  · exact ⟨_, exec_idle s', rfl, hlen, hbuf⟩
  · exact ⟨_, exec_eos s', rfl, rfl, rfl⟩
  · exact ⟨_, exec_data b s', rfl, sameCore_append b ⟨hlen, hbuf⟩⟩
  · exact ⟨_, exec_mark_of_empty (by rw [← hlen, h0]; rfl), rfl, sameCore_append _ ⟨hlen, hbuf⟩⟩
  · rw [hlen, Ne, Fin.ext_iff] at h0 h22
    exact ⟨_, exec_mark_of_wrong_length h0 h22, rfl, sameCore_append _ ⟨rfl, rfl⟩⟩
  · exact ⟨_, exec_mark_of_full (by rw [← hlen, h22]; rfl) (snapshot_congr hbuf hf), rfl, sameCore_append _ ⟨rfl, rfl⟩⟩

/-- A run of events gives the same outputs from two states with the same `BUF` and `LEN`, and leaves the same. -/
theorem runEvents_of_sameCore {is : List Instr} {s s' t : State} {os : List (Option Verdict)} (h : State.SameCore s s')
    (hrun : runEvents is s = some (t, os)) : ∃ t', runEvents is s' = some (t', os) ∧ State.SameCore t t' := by
  induction is generalizing s s' os with
  | nil => cases hrun; exact ⟨s', rfl, h⟩
  | cons i is ih =>
    obtain ⟨u, os', hu, hrest, rfl⟩ := runEvents_cons_eq_some.1 hrun
    obtain ⟨u', hu', hout, huu'⟩ := exec_of_sameCore h hu
    obtain ⟨t', hrest', htt'⟩ := ih huu' hrest
    exact ⟨t', runEvents_cons_eq_some.2 ⟨u', os', hu', hrest', by rw [hout]⟩, htt'⟩

/-! ### Runs -/

/-- A run over two sequences that does not stop, at the state between them. -/
theorem runEvents_append_eq_some {is js : List Instr} {s t : State} {os : List (Option Verdict)} :
    runEvents (is ++ js) s = some (t, os) ↔
      ∃ u os₁ os₂, runEvents is s = some (u, os₁) ∧ runEvents js u = some (t, os₂) ∧ os = os₁ ++ os₂ := by
  rw [runEvents_append]
  constructor
  · intro h
    obtain ⟨⟨u, os₁⟩, h₁, h⟩ := Option.bind_eq_some_iff.1 h
    obtain ⟨⟨t, os₂⟩, h₂, h⟩ := Option.map_eq_some_iff.1 h
    cases h
    exact ⟨u, os₁, os₂, h₁, h₂, rfl⟩
  · rintro ⟨u, os₁, os₂, h₁, h₂, rfl⟩
    simp [h₁, h₂]

/-- A run of IDLE steps leaves `BUF` and `LEN` as they were and emits nothing (R81). -/
theorem runEvents_replicate_idle (n : Nat) (s : State) :
    ∃ t, runEvents (List.replicate n .idle) s = some (t, List.replicate n none) ∧ State.SameCore s t := by
  induction n generalizing s with
  | zero => exact ⟨s, rfl, rfl, rfl⟩
  | succ n ih =>
    obtain ⟨t, hrun, hlen, hbuf⟩ := ih (silent s)
    exact ⟨t, runEvents_cons_eq_some.2 ⟨silent s, _, exec_idle s, hrun, rfl⟩, hlen, hbuf⟩

theorem verdictsOf_append (os os' : List (Option Verdict)) : verdictsOf (os ++ os') = verdictsOf os ++ verdictsOf os' :=
  List.filterMap_append

theorem verdictsOf_replicate_none (n : Nat) : verdictsOf (List.replicate n none) = [] := by
  simp [verdictsOf]

end Sys2Proof.Machine
end

