-- ==== Sys2Proof/Proofs/Synchronizer.lean ====
section
/-! Sys2Proof/Proofs/Synchronizer.lean: the statements of 40_synchronizer.md R81 to R87, each put together from the rules of
Events.lean and the rows of the opcode table in Encoding.lean. -/

namespace Sys2Proof.Machine

/-! ### EOS and IDLE -/

/-- Settles O12: EOS answers the cleared state, whose `BUF` and `LEN` are those of reset. -/
theorem eosDiscardsTheCandidate : Obligations.EosDiscardsTheCandidate := by
  refine ⟨decode_eq_eos_iff_mask, fun s => ⟨_, exec_eos s, rfl, rfl, rfl, rfl, ⟨rfl, rfl⟩, fun hf h0 => ?_⟩⟩
  exact ⟨Fin.ext h0, buf_eq_nil_of_filled hf h0⟩

/-- IDLE steps between two runs of events change neither `BUF` and `LEN` at the end nor the verdicts (R81). -/
theorem runEvents_insert_idle {is js : List Instr} {s t : State} {os : List (Option Verdict)} (n : Nat)
    (h : runEvents (is ++ js) s = some (t, os)) :
    ∃ t' os', runEvents (is ++ List.replicate n .idle ++ js) s = some (t', os') ∧ State.SameCore t t' ∧
      verdictsOf os' = verdictsOf os := by
  obtain ⟨u, os₁, os₂, his, hjs, rfl⟩ := runEvents_append_eq_some.1 h
  obtain ⟨u', hidle, huu'⟩ := runEvents_replicate_idle n u
  obtain ⟨t', hjs', htt'⟩ := runEvents_of_sameCore huu' hjs
  have hfront : runEvents (is ++ List.replicate n .idle) s = some (u', os₁ ++ List.replicate n none) :=
    runEvents_append_eq_some.2 ⟨u, _, _, his, hidle, rfl⟩
  refine ⟨t', _, runEvents_append_eq_some.2 ⟨u', _, _, hfront, hjs', rfl⟩, htt', ?_⟩
  simp only [verdictsOf_append, verdictsOf_replicate_none, List.append_nil]

/-- Settles O14: by induction on the number of IDLE steps, and because a run depends on `BUF` and `LEN` alone. -/
theorem idleChangesNothing : Obligations.IdleChangesNothing :=
  ⟨decode_eq_idle_iff_mask, exec_idle, runEvents_replicate_idle, fun _ _ n _ _ _ h => runEvents_insert_idle n h⟩

/-! ### APPEND and DATA -/

/-- Settles O16: by the three ranges of `LEN`. -/
theorem appendStoresCountsSaturates : Obligations.AppendStoresCountsSaturates := by
  refine fun b s => ⟨fun h => ⟨?_, readByte_append_same b h, fun k hk => readByte_append_other b s hk⟩, fun h => ⟨?_, ?_⟩,
    fun h => ?_, rfl, rfl, rfl⟩
  · rw [append_len, lenSucc_val, if_pos (by omega)]
  · rw [append_len, lenSucc_val, if_pos (by omega), h]
  · rw [append_buf, if_neg (by omega)]
  · have hlen : lenSucc s.len = s.len := Fin.ext (by rw [lenSucc_val, if_neg (by omega)])
    have hbuf : (append b s).buf = s.buf := by rw [append_buf, if_neg (by omega)]
    calc append b s = { s with len := lenSucc s.len, buf := (append b s).buf } := rfl
      _ = s := by rw [hlen, hbuf]

/-- DATA's row of the opcode table (30_encoding.md R62). -/
theorem decode_eq_data_iff_mask (w : EventWord) (b : Byte) :
    decode w = .data b ↔ w &&& 0x700#11 = 0x200#11 ∧ w.extractLsb' 0 8 = b ∧ b ≠ 0xFA#8 := by
  rw [decode_eq_data_iff, and_dataMask_eq_iff, show w.extractLsb' 0 8 = evData w from rfl]
  constructor
  · rintro ⟨hr, hv, he, hd, rfl⟩
    exact ⟨⟨hr, hv, he⟩, rfl, hd⟩
  · rintro ⟨⟨hr, hv, he⟩, rfl, hd⟩
    exact ⟨hr, hv, he, hd, rfl⟩

/-- Settles O17. -/
theorem dataAppendsItsByte : Obligations.DataAppendsItsByte :=
  ⟨decode_eq_data_iff_mask, fun b s =>
    ⟨_, exec_data b s, sameCore_append b ⟨rfl, rfl⟩, rfl, rfl, rfl, append_phase b _⟩⟩

/-! ### FLUSH, MARK and the length filter -/

/-- Settles O20: by FLUSH's two outcomes. -/
theorem flushJudgesOrDropsThenClears : Obligations.FlushJudgesOrDropsThenClears := by
  refine ⟨fun s f h hf => ?_, fun s h => ?_, flushIfNonEmpty_eq, fun s f => snapshot_eq_ok.1⟩
  · exact ⟨_, flush_of_full h hf, rfl, rfl, rfl, rfl, readByte_clear_ne_ok _⟩
  · exact ⟨_, flush_of_not_full h, rfl, rfl, rfl, rfl, readByte_clear_ne_ok _⟩

/-- Settles O21: by what MARK finds in `LEN`; in each case the marker is appended to an empty buffer. -/
theorem markFlushesThenStartsAnew : Obligations.MarkFlushesThenStartsAnew := by
  refine ⟨decode_eq_mark_iff_mask, fun s h => ?_, fun s h0 h22 => ?_, fun s f h hf => ?_⟩
  · exact ⟨_, exec_mark_of_empty h, rfl, rfl, append_to_empty _ h⟩
  · exact ⟨_, exec_mark_of_wrong_length h0 h22, rfl, rfl, append_to_empty _ rfl⟩
  · exact ⟨_, exec_mark_of_full h (snapshot_eq_ok.2 hf), rfl, rfl, append_to_empty _ rfl⟩

/-- The label `LengthMismatch` arises at a MARK only, and there for the lengths neither 0 nor 22 (60_exceptions.md R143). -/
theorem exec_cause_lengthMismatch {i : Instr} {s t : State} (ht : exec i s = .next t) (hc : t.cause = some .lengthMismatch) :
    i = .mark ∧ s.len.val ≠ 0 ∧ s.len.val ≠ 22 := by
  rcases exec_next_cases ht with ⟨_, rfl⟩ | ⟨_, rfl⟩ | ⟨_, rfl⟩ | ⟨b, _, rfl⟩ | ⟨_, _, rfl⟩ | ⟨hi, h0, h22, _⟩ | ⟨_, _, f, _, rfl⟩
  · cases hc
  · cases hc
  · cases hc
  · cases hc
  · cases hc
  · exact ⟨hi, fun e => h0 (Fin.ext e), fun e => h22 (Fin.ext e)⟩
  · exact absurd (Option.some.inj hc) (validate_cause_ne_lengthMismatch f)

/-- Settles O22: the dropped lengths are those neither 0 nor 22, and the clear keeps nothing of a dropped candidate. -/
theorem lengthFilterDropsOtherLengths : Obligations.LengthFilterDropsOtherLengths := by
  unfold Obligations.LengthFilterDropsOtherLengths
  simp only [length_filtered_iff]
  refine ⟨fun s f h hf => ?judged, fun s ⟨h0, h22⟩ => ?dropped, fun i s t => exec_cause_lengthMismatch,
    fun s s' hin ⟨h0, h22⟩ ⟨h0', h22'⟩ => ?forgotten⟩
  case judged => exact ⟨_, exec_mark_of_full h hf, rfl, rfl⟩
  case dropped => exact ⟨_, exec_mark_of_wrong_length h0 h22, rfl, rfl, append_to_empty _ rfl⟩
  case forgotten =>
    rw [exec_mark_of_wrong_length h0 h22, exec_mark_of_wrong_length h0' h22', clear_dropCandidate_congr _ hin]

end Sys2Proof.Machine
end

