-- ==== Sys2Proof/Proofs/Validator.lean ====
section
/-! Sys2Proof/Proofs/Validator.lean: the statements of 41_validator.md R101 to R104. Each answer of Validate is tied to the checks that
give it, and each check to the frame's bytes, once as numbers and once as bit vectors. -/

namespace Sys2Proof.Machine

/-! ### The answers of Validate -/

/-- The cause settles the verdict: `ok = 1` goes with `None` alone (41_validator.md R104). -/
theorem validate_eq_of_cause {f : Frame} {c : Cause} (h : (validate f).cause = c) : validate f = ⟨decide (c = .noCause), c⟩ := by
  subst h
  rcases validate_cases f with ⟨-, h⟩ | ⟨-, -, h⟩ | ⟨-, -, -, h⟩ | ⟨-, -, -, h⟩ <;> simp [h]

theorem validate_eq_badMarker_iff (f : Frame) : validate f = ⟨false, .badMarker⟩ ↔ ¬markerOk f = true := by
  rcases validate_cases f with ⟨hm, h⟩ | ⟨hm, -, h⟩ | ⟨hm, -, -, h⟩ | ⟨hm, -, -, h⟩ <;> simp [h, hm]

theorem validate_eq_indexOutOfRange_iff (f : Frame) :
    validate f = ⟨false, .indexOutOfRange⟩ ↔ markerOk f = true ∧ ¬indexOk f = true := by
  rcases validate_cases f with ⟨hm, h⟩ | ⟨hm, hi, h⟩ | ⟨hm, hi, -, h⟩ | ⟨hm, hi, -, h⟩ <;> simp [*]

theorem validate_eq_checksumMismatch_iff (f : Frame) :
    validate f = ⟨false, .checksumMismatch⟩ ↔ markerOk f = true ∧ indexOk f = true ∧ ¬checksumOk f = true := by
  rcases validate_cases f with ⟨hm, h⟩ | ⟨hm, hi, h⟩ | ⟨hm, hi, hc, h⟩ | ⟨hm, hi, hc, h⟩ <;> simp [*]

theorem validate_eq_noCause_iff (f : Frame) :
    validate f = ⟨true, .noCause⟩ ↔ markerOk f = true ∧ indexOk f = true ∧ checksumOk f = true := by
  rcases validate_cases f with ⟨hm, h⟩ | ⟨hm, hi, h⟩ | ⟨hm, hi, hc, h⟩ | ⟨hm, hi, hc, h⟩ <;> simp [*]

theorem validate_ok_iff (f : Frame) :
    (validate f).ok = true ↔ markerOk f = true ∧ indexOk f = true ∧ checksumOk f = true := by
  rcases validate_cases f with ⟨hm, h⟩ | ⟨hm, hi, h⟩ | ⟨hm, hi, hc, h⟩ | ⟨hm, hi, hc, h⟩ <;> simp [*]

/-! ### The checks by the frame's bytes -/

/-- The index check on bit vectors; `indexOk_iff` is the same check on numbers. -/
theorem indexOk_iff_le (f : Frame) : indexOk f = true ↔ 0xA0#8 ≤ f[1] ∧ f[1] ≤ 0xF9#8 := by
  rw [indexOk_iff]
  rfl

/-- The lower byte counts once, the higher one 256 times (20_memory.md R41). -/
theorem toNat_littleEndian (lo hi : Byte) : (littleEndian lo hi).toNat = lo.toNat + 256 * hi.toNat := by
  have hshift : (hi.setWidth 16 <<< 8).toNat = hi.toNat <<< 8 := by
    rw [BitVec.toNat_shiftLeft, BitVec.toNat_setWidth_of_le (by decide), Nat.shiftLeft_eq]
    omega
  rw [littleEndian, BitVec.toNat_or, hshift, BitVec.toNat_setWidth_of_le (by decide), Nat.or_comm,
    ← Nat.shiftLeft_add_eq_or_of_lt lo.isLt, Nat.shiftLeft_eq]
  omega

theorem checksumOk_iff_setWidth (f : Frame) :
    checksumOk f = true ↔ (checksum (blockOf f)).setWidth 16 = (f[20].setWidth 16 ||| (f[21].setWidth 16 <<< 8)) := by
  rw [checksumOk, storedOf_eq, littleEndian, beq_iff_eq]

/-- The checksum check on numbers: no bit of the stored word is left out (41_validator.md R103). -/
theorem checksumOk_iff (f : Frame) :
    checksumOk f = true ↔ (checksum (blockOf f)).toNat = f[20].toNat + 256 * f[21].toNat := by
  rw [checksumOk_iff_setWidth, ← littleEndian, ← BitVec.toNat_inj, toNat_littleEndian, BitVec.toNat_setWidth_of_le (by decide)]

/-- The checksum does not cover the bytes it is stored in (42_checksum.md R120). -/
theorem blockOf_set_of_le {f : Frame} {k : Nat} (hk : k < 22) (v : Byte) (h : 20 ≤ k) : blockOf (f.set k v) = blockOf f := by
  ext i hi
  rw [blockOf_getElem, blockOf_getElem, Vector.getElem_set_ne _ _ (by omega)]

/-! ### The statements -/

/-- Settles O28: the first check reads byte 0 alone. -/
theorem wrongMarkerIsRejectedFirst : Obligations.WrongMarkerIsRejectedFirst := by
  have reject (f : Frame) : validate f = ⟨false, .badMarker⟩ ↔ f[0] ≠ 0xFA#8 := by
    rw [validate_eq_badMarker_iff, markerOk_iff]
  refine ⟨fun f => (reject f).2, fun f h hc => ?_, fun f v hv => (reject _).2 (by simpa using hv)⟩
  exact (reject f).1 (validate_eq_of_cause hc) h

/-- Settles O29: the index is judged where the marker is in order, and passes exactly in the range. -/
theorem indexOutOfRangeIsRejected : Obligations.IndexOutOfRangeIsRejected := by
  have reject (f : Frame) : validate f = ⟨false, .indexOutOfRange⟩ ↔ f[0] = 0xFA#8 ∧ ¬(0xA0 ≤ f[1].toNat ∧ f[1].toNat ≤ 0xF9) := by
    rw [validate_eq_indexOutOfRange_iff, markerOk_iff, indexOk_iff]
  refine ⟨fun f hm hi => (reject f).2 ⟨hm, by omega⟩, fun f hi hc => ?_⟩
  exact ((reject f).1 (validate_eq_of_cause hc)).2 hi

/-- With its two stored bytes exchanged a valid frame fails, unless they are equal: 255 times their difference is not 0 (R103). -/
theorem validate_swap_stored {f : Frame} (h : (validate f).ok = true) (hne : f[20] ≠ f[21]) :
    validate ((f.set 20 f[21]).set 21 f[20]) = ⟨false, .checksumMismatch⟩ := by
  have hne' : f[20].toNat ≠ f[21].toNat := fun e => hne (BitVec.eq_of_toNat_eq e)
  rw [validate_ok_iff, markerOk_iff, indexOk_iff, checksumOk_iff] at h
  obtain ⟨hm, hi, hc⟩ := h
  rw [validate_eq_checksumMismatch_iff, markerOk_iff, indexOk_iff, checksumOk_iff, blockOf_set_of_le _ _ (by decide),
    blockOf_set_of_le _ _ (by decide)]
  refine ⟨by simpa using hm, by simpa using hi, fun hc' => ?_⟩
  have hswapped : (checksum (blockOf f)).toNat = f[21].toNat + 256 * f[20].toNat := by simpa using hc'
  omega

/-- Settles O30: the comparison is of two numbers, each byte of the stored word at its own weight. -/
theorem storedChecksumIsCompared : Obligations.StoredChecksumIsCompared := by
  refine ⟨fun f hm hi => ?_, fun f => validate_swap_stored⟩
  rw [← markerOk_iff] at hm
  rw [← indexOk_iff] at hi
  simp only [← checksumOk_iff]
  split_ifs with hc
  · exact (validate_eq_noCause_iff f).2 ⟨hm, hi, hc⟩
  · exact (validate_eq_checksumMismatch_iff f).2 ⟨hm, hi, hc⟩

/-- Settles O31: by the first check that fails, each put in terms of the frame's bytes. -/
theorem validateIsTheThreeChecks : Obligations.ValidateIsTheThreeChecks := by
  refine ⟨fun f => ?_, fun f => ?_⟩
  · have hindex : f[1] < 0xA0#8 ∨ f[1] > 0xF9#8 ↔ ¬indexOk f = true := by
      rw [indexOk_iff_le, not_and_or, BitVec.not_le, BitVec.not_le]
    simp only [← markerOk_iff, hindex, ← checksumOk_iff_setWidth, ne_eq, ite_not]
    split_ifs with hm hi hc
    · exact (validate_eq_noCause_iff f).2 ⟨hm, hi, hc⟩
    · exact (validate_eq_checksumMismatch_iff f).2 ⟨hm, hi, hc⟩
    · exact (validate_eq_indexOutOfRange_iff f).2 ⟨hm, hi⟩
    · exact (validate_eq_badMarker_iff f).2 hm
  · rw [validate_ok_iff, markerOk_iff, indexOk_iff_le, checksumOk_iff_setWidth]

end Sys2Proof.Machine
end

