-- ==== Sys2Proof/Proofs/Checksum.lean ====
section
/-! Sys2Proof/Proofs/Checksum.lean: the statements of 42_checksum.md R121 and R122. A fold is arithmetic modulo `2 ^ n` at every width `n`
of the accumulator, and the bound on what `k` words fold to (R124) makes it exact at the widths that hold `k + 16` bits. -/

namespace Sys2Proof.Machine

/-! ### The fold as arithmetic -/

/-- One fold at every width of the accumulator: the width alone decides what is lost (42_checksum.md R122). -/
theorem toNat_foldWord {n : Nat} (cs : BitVec n) (w : Half) : (foldWord cs w).toNat = (2 * cs.toNat + w.toNat) % 2 ^ n := by
  rw [foldWord, BitVec.toNat_add, BitVec.toNat_shiftLeft, BitVec.toNat_setWidth, ← Nat.add_mod, Nat.shiftLeft_eq, pow_one, Nat.mul_comm]

/-- A fold loses no bit where the doubled accumulator and the word fit. -/
theorem toNat_foldWord_of_lt {n : Nat} {cs : BitVec n} {w : Half} (h : 2 * cs.toNat + w.toNat < 2 ^ n) :
    (foldWord cs w).toNat = 2 * cs.toNat + w.toNat := by
  rw [toNat_foldWord, Nat.mod_eq_of_lt h]

/-- With one more word to come, an accumulator within the bound of `k` words (42_checksum.md R124) loses no bit. -/
theorem toNat_foldWord_of_le {n k : Nat} {cs : BitVec n} (w : Half) (hk : k + 17 ≤ n) (hcs : cs.toNat ≤ 0xFFFF * (2 ^ k - 1)) :
    (foldWord cs w).toNat = 2 * cs.toNat + w.toNat := by
  apply toNat_foldWord_of_lt
  have hpos : 0 < 2 ^ k := Nat.two_pow_pos k
  calc 2 * cs.toNat + w.toNat < 2 ^ k * 2 ^ 17 := by omega
    _ = 2 ^ (k + 17) := (pow_add 2 k 17).symm
    _ ≤ 2 ^ n := Nat.pow_le_pow_right (by decide) hk

/-- The accumulator after the words of `is`, in a width that holds them, is at most what that many words of `0xFFFF` fold to (42_checksum.md R124). -/
theorem toNat_foldl_foldWord_le {n : Nat} (d : Block) (is : List (Fin 10)) (h : is.length + 16 ≤ n) :
    (is.foldl (fun cs i => foldWord cs (wordAt d i)) (0 : BitVec n)).toNat ≤ 0xFFFF * (2 ^ is.length - 1) := by
  induction is using List.reverseRecOn with
  | nil => simp
  | append_singleton is i ih =>
    rw [List.length_append, List.length_singleton] at h ⊢
    have hbefore := ih (by omega)
    have hpos : 0 < 2 ^ is.length := Nat.two_pow_pos _
    rw [List.foldl_concat, toNat_foldWord_of_le _ (by omega) hbefore, pow_succ]
    omega

/-! ### The statements -/

/-- Settles O35: a word is the little-endian pair of its two bytes (20_memory.md R41), as bits and as a number. -/
theorem wordsAreLittleEndian : Obligations.WordsAreLittleEndian :=
  fun d i => ⟨wordAt_eq d i, toNat_littleEndian _ _⟩

/-- Settles O36: the accumulator before fold `n` is within the bound of `n` words, and 32 bits hold `n + 17`. -/
theorem foldShiftsAndAdds : Obligations.FoldShiftsAndAdds := by
  refine ⟨fun cs w => rfl, fun d n hn => ?_⟩
  have hlen : ((List.finRange 10).take n).length = n := by
    rw [List.length_take, List.length_finRange, Nat.min_eq_left hn.le]
  have hbefore := toNat_foldl_foldWord_le (n := 32) d ((List.finRange 10).take n) (by omega)
  exact toNat_foldWord_of_le _ (by omega) hbefore

end Sys2Proof.Machine
end

