-- ==== Sys2Proof/Proofs/Exceptions.lean ====
section
/-! Sys2Proof/Proofs/Exceptions.lean: the statement of 60_exceptions.md R142 and R147. What a step reports, output and label together,
is said once for every event; the label of a judged frame is put in terms of the frame's bytes. -/

namespace Sys2Proof.Machine

/-! ### The label of a judged frame -/

/-- The first check that fails gives the label (60_exceptions.md R147). -/
theorem validate_cause_eq (f : Frame) :
    (validate f).cause =
      if f[0] ≠ 0xFA#8 then .badMarker
      else if f[1].toNat < 0xA0 ∨ 0xF9 < f[1].toNat then .indexOutOfRange
      else if (checksum (blockOf f)).toNat ≠ f[20].toNat + 256 * f[21].toNat then .checksumMismatch
      else .noCause := by
  have hindex : f[1].toNat < 0xA0 ∨ 0xF9 < f[1].toNat ↔ ¬indexOk f = true := by
    rw [indexOk_iff]
    omega
  simp only [← markerOk_iff, hindex, ← checksumOk_iff, ne_eq]
  rcases validate_cases f with ⟨hm, h⟩ | ⟨hm, hi, h⟩ | ⟨hm, hi, hc, h⟩ | ⟨hm, hi, hc, h⟩ <;> simp [*]

theorem validate_ok_iff_cause (f : Frame) : (validate f).ok = true ↔ (validate f).cause = .noCause := by
  rw [congrArg Judgement.ok (validate_eq_of_cause (f := f) rfl), decide_eq_true_iff]

/-! ### What a step reports -/

/-- A MARK that finds a candidate labels it, and emits a verdict where 22 bytes were judged; every other step is silent. -/
theorem exec_report_cases {i : Instr} {s t : State} (h : exec i s = .next t) :
    (¬(i = .mark ∧ s.len.val ≠ 0) ∧ t.out = none ∧ t.cause = none) ∨
    (i = .mark ∧ s.len.val ≠ 0 ∧ s.len.val ≠ 22 ∧ t.out = none ∧ t.cause = some .lengthMismatch) ∨
    (i = .mark ∧ s.len.val = 22 ∧ ∃ f, snapshot s = .ok f ∧ t.out = some ⟨f, (validate f).ok⟩ ∧ t.cause = some (validate f).cause) := by
  rcases exec_next_cases h with ⟨rfl, rfl⟩ | ⟨rfl, rfl⟩ | ⟨rfl, rfl⟩ | ⟨b, rfl, rfl⟩ | ⟨rfl, h0, rfl⟩ | ⟨rfl, h0, h22, rfl⟩ |
    ⟨rfl, h22, f, hf, rfl⟩
  · exact .inl ⟨nofun, rfl, rfl⟩
  · exact .inl ⟨nofun, rfl, rfl⟩
  · exact .inl ⟨nofun, rfl, rfl⟩
  · exact .inl ⟨nofun, rfl, rfl⟩
  · exact .inl ⟨fun ⟨_, hne⟩ => hne (congrArg Fin.val h0), rfl, rfl⟩
  · exact .inr (.inl ⟨rfl, fun e => h0 (Fin.ext e), fun e => h22 (Fin.ext e), rfl, rfl⟩)
  · exact .inr (.inr ⟨rfl, congrArg Fin.val h22, f, hf, rfl, rfl⟩)

/-- A label arises exactly at a MARK that finds a candidate. -/
theorem exec_cause_isSome_iff {i : Instr} {s t : State} (h : exec i s = .next t) :
    t.cause.isSome ↔ i = .mark ∧ s.len.val ≠ 0 := by
  rcases exec_report_cases h with ⟨hno, -, hc⟩ | ⟨hi, h0, -, -, hc⟩ | ⟨hi, h22, f, -, -, hc⟩
  · simpa [hc] using hno
  · simp [hc, hi, h0]
  · simp [hc, hi, h22]

/-- Settles O23: a candidate is either dropped, with the length filter's label, or judged, with the Validator's. -/
theorem oneCauseByPriority : Obligations.OneCauseByPriority := by
  refine ⟨by decide, fun i s t => exec_cause_isSome_iff, fun s t c ht hcause => ?_⟩
  rcases exec_report_cases ht with ⟨-, -, hc⟩ | ⟨-, -, h22, hout, hc⟩ | ⟨-, h22, f, hf, hout, hc⟩
  case inl => exact nomatch hc.symm.trans hcause
  case inr.inl =>
    obtain rfl : .lengthMismatch = c := Option.some.inj (hc.symm.trans hcause)
    exact ⟨by simp [h22], fun f h => absurd h h22, by simp [hout], by simp [hout]⟩
  case inr.inr =>
    obtain rfl : (validate f).cause = c := Option.some.inj (hc.symm.trans hcause)
    have hne := validate_cause_ne_lengthMismatch f
    refine ⟨by simp [hne, h22], fun g _ hg => ?_, by simp [hout, hne], fun v hv => ?_⟩
    · obtain rfl : f = g := Except.ok.inj (hf.symm.trans hg)
      exact validate_cause_eq f
    · obtain rfl : ⟨f, (validate f).ok⟩ = v := Option.some.inj (hout.symm.trans hv)
      exact validate_ok_iff_cause f

end Sys2Proof.Machine
end

