-- ==== Sys2Proof/Proofs/Reset.lean ====
section
/-! Sys2Proof/Proofs/Reset.lean: the statements of 70_reset_and_hazards.md R170, R172 and R173. All rest on one fact: the clear of a
silent step is the reset state itself, but for what the byte source presents next. -/

namespace Sys2Proof.Machine

/-! ### What RESET and EOS leave -/

/-- Nothing of a state outlives the clear of a silent step but its input (R170, R173). -/
theorem clear_silent_eq_reset (s : State) : clear (silent s) = { State.reset with input := s.input } := rfl

/-- Holding RESET is the same as one RESET (R170). -/
theorem exec_reset_idempotent {s t : State} (h : exec .reset s = .next t) : exec .reset t = .next t := by
  cases h
  rw [exec_reset, clear_silent_eq_reset, clear_silent_eq_reset]

/-- RESET of an empty buffer changes nothing (R170, corner case). -/
theorem sameCore_clear_of_empty {s : State} (hf : s.Filled) (h0 : s.len.val = 0) : State.SameCore s (clear (silent s)) :=
  ⟨Fin.ext h0, buf_eq_nil_of_filled hf h0⟩

/-- EOS leaves the reset state (R173). -/
theorem exec_eos_eq_reset (s : State) : exec .eos s = .next { State.reset with input := s.input } := by
  rw [exec_eos, clear_silent_eq_reset]

/-! ### Runs and candidates from the reset state -/

/-- A run whose first event answers goes on from that answer; it may stop later. -/
theorem runEvents_cons_of_next {i : Instr} {s u : State} (is : List Instr) (h : exec i s = .next u) :
    runEvents (i :: is) s = (runEvents is u).map fun r => (r.1, u.out :: r.2) := by
  simp only [runEvents, h]

/-- A byte appended to an empty buffer is the whole candidate (R172). -/
theorem candidate_append_to_empty (b : Byte) {s : State} (h : s.len.val = 0) : (append b s).candidate = [b] := by
  obtain ⟨hlen, hread⟩ := append_to_empty b h
  have hstored : (append b s).stored = 1 := by rw [State.stored, hlen]; rfl
  obtain ⟨-, hbyte⟩ := readByte_eq_ok.1 hread
  simp [State.candidate, hstored, hbyte]

/-! ### The statements -/

/-- Settles O11: RESET answers the cleared state, whose `BUF` and `LEN` are those of reset. -/
theorem resetEmptiesTheBuffer : Obligations.ResetEmptiesTheBuffer :=
  ⟨decode_eq_reset_iff_mask, fun s => ⟨_, exec_reset s, rfl, rfl, rfl, rfl, ⟨rfl, rfl⟩, exec_reset_idempotent (exec_reset s),
    sameCore_clear_of_empty⟩⟩

/-- Settles O10: the first byte, marker or not, is appended to the empty buffer. -/
theorem initialStateIsEmpty : Obligations.InitialStateIsEmpty :=
  ⟨rfl, rfl, rfl, fun b => ⟨_, exec_data b _, candidate_append_to_empty b rfl⟩,
    ⟨_, exec_mark_of_empty rfl, candidate_append_to_empty _ rfl⟩⟩

/-- Settles O13: both events clear; RESET is first in the decoder's list; and a run goes on from the state its first event leaves. -/
theorem eosAndResetLeaveTheSameState : Obligations.EosAndResetLeaveTheSameState := by
  refine ⟨fun s => ?same, exec_eos_eq_reset, fun d => ?wins, fun s is => runEvents_cons_of_next is (exec_eos_eq_reset s)⟩
  case same => rw [exec_eos, exec_reset]
  case wins => rw [decode_eq_reset_iff, evRst_eventWord]

end Sys2Proof.Machine
end

