-- ==== Sys2Proof/Proofs/EventWords.lean ====
section
/-! Sys2Proof/Proofs/EventWords.lean: words built from their fields (30_encoding.md R60 to R62). The decoder of `eventWord` is said once;
the round trip with the encoder, the sample words and the pins are its cases. -/

namespace Sys2Proof

open Machine

/-- The decoder's list on a word given by its fields. -/
theorem decode_eventWord (r v e : Bool) (d : Byte) :
    decode (eventWord r v e d) =
      if r then .reset else if v = false then .idle else if e then .eos else if d = 0xFA#8 then .mark else .data d := by
  simp [decode, Config.startMarker]

/-- The decoder gives events only: DATA's byte is never the marker (R60). -/
theorem decode_wellFormed (w : EventWord) : (decode w).WellFormed := by
  rcases decode_cases w with ⟨_, h⟩ | ⟨_, _, h⟩ | ⟨_, _, _, h⟩ | ⟨_, _, _, _, h⟩ | ⟨_, _, _, hd, h⟩
  case inr.inr.inr.inr => simpa [h, Instr.WellFormed, Instr.wellFormed, Config.startMarker] using hd
  all_goals rw [h]; rfl

theorem ne_marker_of_data_wellFormed {b : Byte} (h : (Instr.data b).WellFormed) : b ≠ Config.startMarker := by
  simpa [Instr.WellFormed, Instr.wellFormed] using h

theorem decode_encode {i : Instr} (h : i.WellFormed) : decode (encode i) = i := by
  cases i with
  | data b =>
    have hb : b ≠ 0xFA#8 := ne_marker_of_data_wellFormed h
    simp [encode, decode_eventWord, hb]
  | _ => simp [encode, decode_eventWord, Config.startMarker]

/-- Settles O2: every encoding is a word given by its fields, those the decoder ignores left open. -/
theorem decodeOfEncodeIsTheEvent : Obligations.DecodeOfEncodeIsTheEvent :=
  ⟨fun _ => decode_encode, fun v e d => decode_eventWord true v e d, fun e d => decode_eventWord false false e d,
    fun d => decode_eventWord false true true d, fun d => decode_eventWord false true false d, decode_wellFormed⟩

/-- Settles O3. -/
theorem sampleWordsDecode : Obligations.SampleWordsDecode := by
  unfold Obligations.SampleWordsDecode
  decide

/-- Settles O4: the pins are the fields of the event word, and every arm of `outPins` drives `in_ready` to 1. -/
theorem pinsSelectTheEvent : Obligations.PinsSelectTheEvent := by
  refine ⟨fun p => decode_eventWord p.rst p.inValid p.inEos p.inData, fun n o => ?_⟩
  cases o <;> rfl

end Sys2Proof
end

