-- ==== Sys2Proof/Proofs/Buffer.lean ====
section
/-! Sys2Proof/Proofs/Buffer.lean: which reads of `BUF` give a byte (10_state.md R33, 20_memory.md R41 to R48). A buffer that is `Filled` is
read at exactly the offsets of the candidate; the snapshot answers where all 22 can be read, and otherwise the first that cannot be
stops it. -/

namespace Sys2Proof.Machine

/-! ### Reads of a filled buffer -/

theorem stored_eq (s : State) : s.stored = min s.len.val 22 := rfl

/-- A filled buffer lists exactly the offsets of the candidate. -/
theorem read_isSome_iff_of_filled {s : State} (h : s.Filled) (k : Nat) :
    (Memory.read s.buf k).isSome ↔ k < min s.len.val 22 := by
  rw [Memory.read_isSome_iff, show s.buf.map Prod.fst = List.range s.stored from h, List.mem_range, stored_eq]

theorem exists_readByte_of_filled {s : State} (h : s.Filled) {k : Nat} (hk : k < min s.len.val 22) :
    ∃ b, readByte s k = .ok b := by
  obtain ⟨b, hb⟩ := Option.isSome_iff_exists.1 ((read_isSome_iff_of_filled h k).2 hk)
  exact ⟨b, readByte_eq_ok.2 ⟨by omega, hb⟩⟩

theorem readByte_eq_noValue {s : State} {k : Nat} (hk : k < 22) (h : Memory.read s.buf k = none) :
    readByte s k = .error (.noValue k) :=
  readByte_eq_error.2 (.inr ⟨hk, h, rfl⟩)

/-- Settles O44: an offset is read exactly if it is one of the candidate's. -/
theorem onlyBytesOfTheCandidateHoldAValue : Obligations.OnlyBytesOfTheCandidateHoldAValue := by
  refine fun s h => ⟨fun k => exists_readByte_of_filled h, fun k hk hk22 => ?unlisted, fun k hk => ?missing, ?length⟩
  case unlisted =>
    refine readByte_eq_noValue hk22 (Option.not_isSome_iff_eq_none.1 ?_)
    rw [read_isSome_iff_of_filled h]
    omega
  case missing => exact readByte_eq_error.2 (.inl ⟨hk, rfl⟩)
  case length =>
    have hsome : ∀ k ∈ List.range s.stored, (Memory.read s.buf k).isSome := fun k hk => by
      rwa [read_isSome_iff_of_filled h, ← stored_eq, ← List.mem_range]
    rw [State.candidate, List.length_filterMap_eq_countP, List.countP_eq_length.2 hsome, List.length_range, stored_eq]

/-! ### The snapshot -/

theorem exists_readFirst {s : State} {n : Nat} (h : ∀ k < n, ∃ b, readByte s k = .ok b) : ∃ v, readFirst s n = .ok v := by
  induction n with
  | zero => exact ⟨_, rfl⟩
  | succ n ih =>
    obtain ⟨v, hv⟩ := ih fun k hk => h k (by omega)
    obtain ⟨b, hb⟩ := h n (by omega)
    exact ⟨v.push b, by simp only [readFirst, hv, hb]⟩

/-- The bytes are read in increasing order of the offset, so the first that cannot be read gives the fault. -/
theorem readFirst_eq_error {s : State} {n k : Nat} {e : Fault} (hk : k < n) (hfirst : ∀ j < k, ∃ b, readByte s j = .ok b)
    (he : readByte s k = .error e) : readFirst s n = .error e := by
  induction n with
  | zero => omega
  | succ n ih =>
    obtain hlt | rfl : k < n ∨ k = n := by omega
    · simp only [readFirst, ih hlt]
    · obtain ⟨v, hv⟩ := exists_readFirst hfirst
      simp only [readFirst, hv, he]

/-- A filled buffer of 22 bytes can be judged. -/
theorem exists_snapshot_of_filled {s : State} (h : s.Filled) (h22 : s.len.val = 22) : ∃ f, snapshot s = .ok f :=
  exists_readFirst fun _ hk => exists_readByte_of_filled h (by rw [h22]; exact hk)

/-- The flush's snapshot faults as its read does, and MARK with it. -/
theorem exec_mark_of_fault {s : State} {e : Fault} (h22 : s.len.val = 22) (he : snapshot s = .error e) :
    exec .mark s = .fault e := by
  have hflush : flushIfNonEmpty s = .error e := by
    rw [flushIfNonEmpty_eq, if_neg (by omega)]
    simp [flush, lenIsFull_iff.2 h22, he]
  simp [exec, execMark, hflush, Except.map, answer]

/-- Settles O25: the bytes before the unwritten one are read first, and all of them hold a value. -/
theorem markFaultsOnAByteWithoutValue : Obligations.MarkFaultsOnAByteWithoutValue := by
  intro s k h22 hk hnone hfirst
  refine exec_mark_of_fault h22 (readFirst_eq_error hk (fun j hj => ?_) (readByte_eq_noValue hk hnone))
  obtain ⟨b, hb⟩ := Option.ne_none_iff_exists'.1 (hfirst j hj)
  exact ⟨b, readByte_eq_ok.2 ⟨by omega, hb⟩⟩

/-- A snapshot's 16-bit reads are the little-endian words of its bytes (20_memory.md R53). -/
theorem readHalf_of_snapshot {s : State} {f : Frame} (h : snapshot s = .ok f) {k : Nat} (hk : k + 1 < 22) :
    readHalf s k = .ok (littleEndian f[k] f[k + 1]) :=
  readHalf_of_ok (snapshot_eq_ok.1 h ⟨k, by omega⟩) (snapshot_eq_ok.1 h ⟨k + 1, hk⟩)

/-- Settles O43: the checksum covers the frame's first 20 bytes, and the stored word is its last two. -/
theorem sixteenBitReadsSeeTheAppendedBytes : Obligations.SixteenBitReadsSeeTheAppendedBytes := by
  refine fun s f h => ⟨fun i => ?_, readHalf_of_snapshot h (by decide)⟩
  rw [readHalf_of_snapshot h (by omega), wordAt_eq, blockOf_getElem, blockOf_getElem]

end Sys2Proof.Machine
end

