-- ==== Sys2Proof/Proofs/Steps.lean ====
section
/-! Sys2Proof/Proofs/Steps.lean: one step and as many as were presented (00_scope.md R9), and that an event reads nothing of a state but
`BUF`, `LEN` and, to leave it alone, what is presented next (10_state.md R27). -/

namespace Sys2Proof.Machine

/-! ### What an event does not read -/

theorem readFirst_congr {s t : State} (h : s.buf = t.buf) (n : Nat) : readFirst s n = readFirst t n := by
  induction n with
  | zero => rfl
  | succ n ih =>
    have hn : readByte s n = readByte t n := readByte_congr (by rw [h])
    simp only [readFirst, ih, hn]

/-- FLUSH overwrites the output and the label before anything reads them. -/
theorem flush_silent (s : State) : flush (silent s) = flush s := by
  have hsnapshot : snapshot (silent s) = snapshot s := readFirst_congr rfl _
  unfold flush
  rw [hsnapshot]
  rfl

theorem exec_silent (i : Instr) (s : State) : exec i (silent s) = exec i s := by
  cases i with
  | mark =>
    have hflush : flushIfNonEmpty (silent s) = flushIfNonEmpty s := by
      rw [flushIfNonEmpty_eq, flushIfNonEmpty_eq, flush_silent]
      rfl
    simp only [exec, execMark, hflush]
  | _ => rfl

/-- Settles O27: with their outputs and labels taken out the two states are the same. -/
theorem outputsAreNotRead : Obligations.OutputsAreNotRead :=
  fun i s o c => (exec_silent i { s with out := o, cause := c }).symm.trans (exec_silent i s)

/-- What is presented next plays no part in an event and is left alone by it. -/
theorem exec_with_input {i : Instr} {s t : State} (ws : List EventWord) (h : exec i s = .next t) :
    exec i { s with input := ws } = .next { t with input := ws } := by
  rcases exec_next_cases h with ⟨rfl, rfl⟩ | ⟨rfl, rfl⟩ | ⟨rfl, rfl⟩ | ⟨b, rfl, rfl⟩ | ⟨rfl, h0, rfl⟩ | ⟨rfl, h0, h22, rfl⟩ |
    ⟨rfl, h22, f, hf, rfl⟩
  · rfl
  · rfl
  · rfl
  · rfl
  · exact exec_mark_of_empty (congrArg Fin.val h0)
  · exact exec_mark_of_wrong_length (fun e => h0 (Fin.ext e)) (fun e => h22 (Fin.ext e))
  · exact exec_mark_of_full (congrArg Fin.val h22) (snapshot_congr (t := { s with input := ws }) rfl hf)

theorem exec_input {i : Instr} {s t : State} (h : exec i s = .next t) : t.input = s.input := by
  have h' : exec i s = .next { t with input := s.input } := exec_with_input s.input h
  have ht : t = { t with input := s.input } := Host.Outcome.next.inj (h.symm.trans h')
  rw [ht]

/-! ### Steps -/

theorem step_of_presented {s : State} {w : EventWord} {rest : List EventWord} (h : s.input = w :: rest) :
    step s = exec (decode w) { s with input := rest } := by
  rw [step, fetchEvent, h]

/-- Settles O5. -/
theorem stepRunsTheDecodedEvent : Obligations.StepRunsTheDecodedEvent :=
  ⟨fun _ w _ h => ⟨decode_wellFormed w, step_of_presented h⟩, fun s w => step_of_presented (presentEvent_input s w)⟩

/-- Settles O6. -/
theorem stepWithNothingPresentedIsIdle : Obligations.StepWithNothingPresentedIsIdle := by
  intro s h
  rw [step, fetchEvent, h]

/-- A step that answers has executed an event, in a state with the same `BUF` and `LEN`. -/
theorem exists_exec_of_step (s : State) : ∃ i s', i.WellFormed ∧ State.SameCore s s' ∧ step s = exec i s' := by
  rcases fetchEvent_cases s with ⟨-, h⟩ | ⟨w, rest, -, h⟩
  · exact ⟨.idle, s, rfl, ⟨rfl, rfl⟩, by rw [step, h]⟩
  · exact ⟨decode w, { s with input := rest }, decode_wellFormed w, ⟨rfl, rfl⟩, by rw [step, h]⟩

/-- One step of the machine and then the rest of its run. -/
theorem coreRun_succ_of_step {n : Nat} {s t : State} (h : step s = .next t) :
    Host.Core.run Sys2Proof.core (n + 1) s = Host.Core.run Sys2Proof.core n t := by
  have hstep : Sys2Proof.core.step s = .next t := h
  simp only [Host.Core.run, hstep]

/-- Settles O7: by induction on the words; each step takes one, and its event leaves the others to the steps after it. -/
theorem stepsOverPresentedWordsAreTheEventRun : Obligations.StepsOverPresentedWordsAreTheEventRun := by
  intro ws
  induction ws with
  | nil =>
    intro s t os h
    cases h
    rfl
  | cons w ws ih =>
    intro s t os h
    obtain ⟨u, os', hu, hrest, -⟩ := runEvents_cons_eq_some.1 h
    have hstep : step { s with input := w :: ws } = .next { u with input := ws } :=
      (step_of_presented rfl).trans (exec_with_input (s := { s with input := [] }) ws hu)
    have hinput : { u with input := [] } = u := by rw [← show u.input = [] from exec_input hu]
    rw [List.length_cons, coreRun_succ_of_step hstep]
    exact ih u t os' (by rwa [hinput])

end Sys2Proof.Machine
end

