-- ==== Sys2Proof/Proofs/Invariant.lean ====
section
/-! Sys2Proof/Proofs/Invariant.lean: what every step keeps (10_state.md R28, R33), said first of APPEND and the clear, which are all that an
event does to `BUF`; and that no state of the invariant stops (00_scope.md R10). -/

namespace Sys2Proof.Machine

/-! ### APPEND and the clear -/

/-- A filled buffer with room lists the byte appended last. -/
theorem append_buf_of_filled {s : State} (b : Byte) (h : s.Filled) (hlen : s.len.val ≤ 21) :
    (append b s).buf = s.buf ++ [(s.len.val, b)] := by
  rw [append_buf, if_pos hlen]
  refine Memory.write_last b fun c hc => ?_
  have hmem : c.1 ∈ List.range s.stored := h ▸ List.mem_map_of_mem hc
  rw [List.mem_range, stored_eq] at hmem
  omega

theorem append_filled {s : State} (b : Byte) (h : s.Filled) : (append b s).Filled := by
  have hoffsets : s.buf.map Prod.fst = List.range s.stored := h
  unfold State.Filled
  rw [stored_eq, append_len, lenSucc_val]
  rw [stored_eq] at hoffsets
  by_cases hlen : s.len.val ≤ 21
  · rw [append_buf_of_filled b h hlen, List.map_append, hoffsets, if_pos (by omega), Nat.min_eq_left (by omega),
      Nat.min_eq_left (by omega), List.range_succ, List.map_singleton]
  · rw [append_buf, if_neg hlen, hoffsets]
    congr 1
    split <;> omega

theorem clear_filled (s : State) : (clear s).Filled := rfl

/-- A marker is appended at offset 0 only, or not at all. -/
theorem append_markerOnlyFirst {s : State} {b : Byte} (h : s.MarkerOnlyFirst) (hb : b = Config.startMarker → s.len.val = 0) :
    (append b s).MarkerOnlyFirst := by
  intro c hc h1 hm
  rw [append_buf] at hc
  split at hc
  · rcases Memory.mem_write hc with rfl | hc
    · exact absurd (hb hm) (by simpa [Nat.one_le_iff_ne_zero] using h1)
    · exact h c hc h1 hm
  · exact h c hc h1 hm

theorem clear_markerOnlyFirst (s : State) : (clear s).MarkerOnlyFirst := fun _ hc => nomatch hc

theorem append_inv {s : State} {b : Byte} (h : s.Inv) (hb : b = Config.startMarker → s.len.val = 0) : (append b s).Inv :=
  ⟨append_filled b h.1, append_markerOnlyFirst h.2 hb⟩

theorem clear_inv (s : State) : (clear s).Inv := ⟨clear_filled s, clear_markerOnlyFirst s⟩

theorem inv_of_sameCore {s t : State} (h : State.SameCore s t) (hs : s.Inv) : t.Inv := by
  obtain ⟨hlen, hbuf⟩ := h
  obtain ⟨hfilled, hmarker⟩ := hs
  unfold State.Filled State.stored at hfilled
  unfold State.MarkerOnlyFirst at hmarker
  rw [hlen, hbuf] at hfilled
  rw [hbuf] at hmarker
  exact ⟨hfilled, hmarker⟩

/-! ### Events and steps -/

/-- Every event keeps the invariant: what it appends is no marker, or is appended to an empty buffer. -/
theorem exec_inv {i : Instr} {s t : State} (hi : i.WellFormed) (hs : s.Inv) (h : exec i s = .next t) : t.Inv := by
  have hsilent : (silent s).Inv := hs
  rcases exec_next_cases h with ⟨rfl, rfl⟩ | ⟨rfl, rfl⟩ | ⟨rfl, rfl⟩ | ⟨b, rfl, rfl⟩ | ⟨rfl, h0, rfl⟩ | ⟨rfl, -, -, rfl⟩ |
    ⟨rfl, -, f, -, rfl⟩
  · exact clear_inv _
  · exact hsilent
  · exact clear_inv _
  · exact append_inv hsilent fun e => absurd e (ne_marker_of_data_wellFormed hi)
  · exact append_inv hsilent fun _ => congrArg Fin.val h0
  · exact append_inv (clear_inv _) fun _ => rfl
  · exact append_inv (clear_inv _) fun _ => rfl

/-- Settles O47. -/
theorem invariantHoldsAtReset : Obligations.InvariantHoldsAtReset := clear_inv State.reset

/-- Settles O48: a step executes an event, and every event keeps the invariant. -/
theorem everyStepKeepsTheInvariant : Obligations.EveryStepKeepsTheInvariant := by
  intro s t hs h
  obtain ⟨i, s', hi, hcore, hstep⟩ := exists_exec_of_step s
  exact exec_inv hi (inv_of_sameCore hcore hs) (hstep.symm.trans h)

/-- The only stop is a MARK at 22 over a byte without a value, and a filled buffer has none. -/
theorem exists_exec_of_filled {s : State} (i : Instr) (h : s.Filled) : ∃ t, exec i s = .next t := by
  cases i with
  | mark =>
    by_cases h0 : s.len.val = 0
    · exact ⟨_, exec_mark_of_empty h0⟩
    by_cases h22 : s.len.val = 22
    · obtain ⟨f, hf⟩ := exists_snapshot_of_filled h h22
      exact ⟨_, exec_mark_of_full h22 hf⟩
    · exact ⟨_, exec_mark_of_wrong_length h0 h22⟩
  | _ => exact ⟨_, rfl⟩

/-- A run of events from a state of the invariant answers and ends in one. -/
theorem exists_runEvents_of_inv {is : List Instr} {s : State} (hs : s.Inv) (his : ∀ i ∈ is, i.WellFormed) :
    ∃ t os, runEvents is s = some (t, os) ∧ t.Inv := by
  induction is generalizing s with
  | nil => exact ⟨s, [], rfl, hs⟩
  | cons i is ih =>
    obtain ⟨u, hu⟩ := exists_exec_of_filled i hs.1
    obtain ⟨t, os, hrun, ht⟩ := ih (exec_inv (his i List.mem_cons_self) hs hu) fun j hj => his j (List.mem_cons_of_mem _ hj)
    exact ⟨t, _, runEvents_cons_eq_some.2 ⟨u, os, hu, hrun, rfl⟩, ht⟩

/-- Settles O49: an event answers in every filled state, and the invariant goes with it. -/
theorem invariantStatesAlwaysAnswer : Obligations.InvariantStatesAlwaysAnswer := by
  refine ⟨fun s hs => ?_, fun is s hs his => ?_⟩
  · obtain ⟨i, s', -, hcore, hstep⟩ := exists_exec_of_step s
    obtain ⟨hfilled, -⟩ := inv_of_sameCore hcore hs
    rw [hstep]
    exact exists_exec_of_filled i hfilled
  · obtain ⟨t, os, hrun, ht⟩ := exists_runEvents_of_inv hs his
    exact ⟨t, os, hrun, ht, runEvents_length hrun⟩

/-- Every event keeps `BUF`'s list in canonical form. -/
theorem exec_wf {i : Instr} {s t : State} (hs : s.buf.wf) (h : exec i s = .next t) : t.buf.wf := by
  have hsilent : (silent s).buf.wf := hs
  rcases exec_next_cases h with ⟨-, rfl⟩ | ⟨-, rfl⟩ | ⟨-, rfl⟩ | ⟨b, -, rfl⟩ | ⟨-, -, rfl⟩ | ⟨-, -, -, rfl⟩ | ⟨-, -, f, -, rfl⟩
  · exact clear_wf _
  · exact hsilent
  · exact clear_wf _
  · exact append_wf b hsilent
  · exact append_wf _ hsilent
  · exact append_wf _ (clear_wf _)
  · exact append_wf _ (clear_wf _)

/-- Settles O50: a step executes an event, and every event keeps the form. -/
theorem everyStepKeepsMemoryCanonical : Obligations.EveryStepKeepsMemoryCanonical := by
  intro s t hs h
  obtain ⟨i, s', -, ⟨-, hbuf⟩, hstep⟩ := exists_exec_of_step s
  exact exec_wf (hbuf ▸ hs) (hstep.symm.trans h)

/-- Settles O52: the frame emitted is the snapshot, and the invariant allows a marker at offset 0 only. -/
theorem pipelineFramesHoldNoInnerMarker : Obligations.PipelineFramesHoldNoInnerMarker := by
  rintro s t v ⟨-, hmarker⟩ h hout k hk
  rcases exec_report_cases h with ⟨-, hnone, -⟩ | ⟨-, -, -, hnone, -⟩ | ⟨-, -, f, hf, hsome, -⟩
  · exact nomatch hnone.symm.trans hout
  · exact nomatch hnone.symm.trans hout
  · obtain rfl := Option.some.inj (hsome.symm.trans hout)
    obtain ⟨-, hread⟩ := readByte_eq_ok.1 (snapshot_eq_ok.1 hf k)
    exact hmarker _ (Memory.mem_of_read hread) hk

end Sys2Proof.Machine
end

