-- ==== Sys2Proof/Proofs/Growable.lean ====
section
/-! Sys2Proof/Proofs/Growable.lean: the source's growable buffer (10_state.md R22, 40_synchronizer.md R80). `Tracks` is kept by APPEND and
the clear, and gives FLUSH the same candidate to judge; each event is put together from these. -/

namespace Sys2Proof.Machine

/-! ### Byte sequences as frames -/

theorem verdictOf_toList (f : Frame) : verdictOf f.toList = some ⟨f, (validate f).ok⟩ := by
  rw [verdictOf, toFrame?_eq_some.2 rfl, Option.map_some]

/-- A candidate that gives a verdict is the frame of it. -/
theorem verdictOf_eq_some {c : List Byte} {v : Verdict} : verdictOf c = some v ↔ v.frame.toList = c ∧ v.ok = (validate v.frame).ok := by
  constructor
  · intro h
    obtain ⟨f, hf, rfl⟩ := Option.map_eq_some_iff.1 h
    exact ⟨toFrame?_eq_some.1 hf, rfl⟩
  · obtain ⟨f, ok⟩ := v
    rintro ⟨rfl, hok⟩
    rw [verdictOf_toList, ← show ok = (validate f).ok from hok]

theorem verdictOf_eq_none {c : List Byte} (h : c.length ≠ 22) : verdictOf c = none := by
  rw [verdictOf, toFrame?, dif_neg h, Option.map_none]

theorem exists_frame_of_length {c : List Byte} (h : c.length = 22) : ∃ f : Frame, f.toList = c :=
  ⟨⟨c.toArray, by simpa using h⟩, rfl⟩

/-! ### `Tracks` under APPEND, the clear and the snapshot -/

theorem tracks_nil {s : State} (h : s.len.val = 0) : Tracks [] s :=
  ⟨h, fun _ hk => absurd hk (by simp)⟩

/-- The byte appended is the next of the growable buffer, up to the 22 that `BUF` holds. -/
theorem tracks_append {g : List Byte} {s : State} (b : Byte) (h : Tracks g s) : Tracks (g ++ [b]) (append b s) := by
  obtain ⟨hlen, hread⟩ := h
  refine ⟨?_, fun k hk => ?_⟩
  · rw [append_len, lenSucc_val, List.length_append, List.length_singleton]
    split <;> omega
  · rw [List.length_append, List.length_singleton] at hk
    rw [append_buf]
    split
    · rw [show s.len.val = g.length by omega]
      obtain rfl | hlt : k = g.length ∨ k < g.length := by omega
      · rw [Memory.read_write_same, List.getElem?_concat_length]
      · rw [Memory.read_write_other _ _ (by omega), hread k (by omega), List.getElem?_append_left hlt]
    · rw [hread k (by omega), List.getElem?_append_left (by omega)]

/-- A byte appended to an empty buffer is the whole of the growable one. -/
theorem tracks_append_to_empty {s : State} (b : Byte) (h : s.len.val = 0) : Tracks [b] (append b s) :=
  tracks_append b (tracks_nil h)

/-- Where the growable buffer holds 22 bytes, the snapshot is those. -/
theorem snapshot_of_tracks {f : Frame} {s : State} (h : Tracks f.toList s) : snapshot s = .ok f := by
  obtain ⟨-, hread⟩ := h
  have hlength : f.toList.length = 22 := f.length_toList
  refine snapshot_eq_ok.2 fun k => readByte_eq_ok.2 ⟨k.isLt, ?_⟩
  rw [hread k (by omega), List.getElem?_eq_getElem (by omega), Vector.getElem_toList]

/-! ### The simulation -/

/-- A MARK judges or drops the candidate as the source does, and both start anew with the marker. -/
theorem exec_mark_of_tracks {g : List Byte} {s : State} (h : Tracks g s) :
    ∃ t, exec .mark s = .next t ∧ t.out = verdictOf g ∧ Tracks [Config.startMarker] t := by
  have hlen : s.len.val = min g.length 23 := h.1
  by_cases h22 : g.length = 22
  · obtain ⟨f, rfl⟩ := exists_frame_of_length h22
    exact ⟨_, exec_mark_of_full (by omega) (snapshot_of_tracks h), (verdictOf_toList f).symm, tracks_append_to_empty _ rfl⟩
  rw [verdictOf_eq_none h22]
  by_cases h0 : g.length = 0
  · exact ⟨_, exec_mark_of_empty (by omega), rfl, tracks_append_to_empty _ (show s.len.val = 0 by omega)⟩
  · exact ⟨_, exec_mark_of_wrong_length (by omega) (by omega), rfl, tracks_append_to_empty _ rfl⟩

/-- The source's test for bytes collected decides nothing: no bytes give no verdict. -/
theorem growableStep_mark (g : List Byte) : growableStep g .mark = ([Config.startMarker], verdictOf g) := by
  unfold growableStep
  split_ifs with hg
  · subst hg
    rfl
  · rfl

/-- The step lemma of the simulation. -/
theorem exec_of_tracks {g : List Byte} {s : State} (i : Instr) (h : Tracks g s) :
    ∃ t, exec i s = .next t ∧ t.out = (growableStep g i).2 ∧ Tracks (growableStep g i).1 t := by
  cases i with
  | reset => exact ⟨_, exec_reset s, rfl, tracks_nil rfl⟩
  | idle => exact ⟨_, exec_idle s, rfl, h⟩
  | eos => exact ⟨_, exec_eos s, rfl, tracks_nil rfl⟩
  | data b => exact ⟨_, exec_data b s, rfl, tracks_append b (s := silent s) h⟩
  | mark =>
    rw [growableStep_mark]
    exact exec_mark_of_tracks h

/-- Related states run alike. -/
theorem runEvents_of_tracks (is : List Instr) {g : List Byte} {s : State} (h : Tracks g s) :
    ∃ t, runEvents is s = some (t, (growableRun is g).2) ∧ Tracks (growableRun is g).1 t := by
  induction is generalizing g s with
  | nil => exact ⟨s, rfl, h⟩
  | cons i is ih =>
    obtain ⟨u, hu, hout, hgu⟩ := exec_of_tracks i h
    obtain ⟨t, hrun, ht⟩ := ih hgu
    exact ⟨t, runEvents_cons_eq_some.2 ⟨u, _, hu, hrun, by rw [hout]; rfl⟩, ht⟩

/-- Settles O58: the step lemma, and a run by induction on its events. -/
theorem growableBufferIsSimulated : Obligations.GrowableBufferIsSimulated :=
  ⟨tracks_nil rfl, fun _ _ i => exec_of_tracks i, fun is => runEvents_of_tracks is (tracks_nil rfl)⟩

end Sys2Proof.Machine
end

