-- ==== Sys2Proof/Proofs/Streams.lean ====
section
/-! Sys2Proof/Proofs/Streams.lean: what the bytes of a stream say (40_synchronizer.md R88), by position. The candidate under assembly is
what the growable buffer holds, so each byte of the stream is a step of the simulation of Growable.lean; the statements over whole
streams follow by induction on the bytes or on the position. -/

namespace Sys2Proof.Machine

/-! ### Slices and the start of a candidate -/

theorem slice_eq_drop_take (s : List Byte) (a b : Nat) : slice s a b = (s.take b).drop a := by
  rw [slice, List.drop_take]

/-- A slice does not look past its end. -/
theorem slice_append_left {s : List Byte} {b : Nat} (s' : List Byte) (a : Nat) (h : b ≤ s.length) :
    slice (s ++ s') a b = slice s a b := by
  rw [slice_eq_drop_take, slice_eq_drop_take, List.take_append_of_le_length h]

/-- A slice one byte longer. -/
theorem slice_snoc {s : List Byte} {a : Nat} (b : Byte) (h : a ≤ s.length) :
    slice (s ++ [b]) a (s ++ [b]).length = slice s a s.length ++ [b] := by
  rw [slice_eq_drop_take, slice_eq_drop_take, List.take_length, List.take_length, List.drop_append_of_le_length h]

/-- The first byte of a slice. -/
theorem head_of_toList_eq_slice {f : Frame} {s : List Byte} {a b : Nat} (h : f.toList = slice s a b) (hab : a < b) :
    s[a]? = some f[0] := by
  have h0 : f.toList[0]? = some f[0] := by simp
  rw [h, slice, List.getElem?_take_of_lt (by omega), List.getElem?_drop, Nat.add_zero] at h0
  exact h0

/-- A marker starts the candidate of the bytes after it; any other byte goes on with the one under assembly. -/
theorem candidateStart_succ (s : List Byte) (k : Nat) :
    candidateStart s (k + 1) = if s[k]? = some Config.startMarker then k else candidateStart s k := by
  unfold candidateStart
  rw [List.range_succ, List.filter_append]
  split_ifs with h
  · simp [h]
  · simp [h]

theorem candidateStart_le (s : List Byte) (k : Nat) : candidateStart s k ≤ k := by
  induction k with
  | zero => exact Nat.le_refl 0
  | succ k ih =>
    rw [candidateStart_succ]
    split_ifs <;> omega

/-- Where a candidate starts: at a marker, or at the start of a stream without one so far. -/
theorem candidateStart_cases (s : List Byte) (k : Nat) :
    (candidateStart s k < k ∧ s[candidateStart s k]? = some Config.startMarker) ∨
    (candidateStart s k = 0 ∧ ∀ q < k, s[q]? ≠ some Config.startMarker) := by
  induction k with
  | zero => exact .inr ⟨rfl, fun q hq => absurd hq q.not_lt_zero⟩
  | succ k ih =>
    rw [candidateStart_succ]
    split_ifs with h
    · exact .inl ⟨k.lt_succ_self, h⟩
    · rcases ih with ⟨hlt, hmark⟩ | ⟨h0, hnone⟩
      · exact .inl ⟨hlt.trans k.lt_succ_self, hmark⟩
      · refine .inr ⟨h0, fun q hq => ?_⟩
        obtain rfl | hlt : q = k ∨ q < k := by omega
        · exact h
        · exact hnone q hlt

/-- The start of a candidate depends on the bytes before the position only. -/
theorem candidateStart_append_left {s : List Byte} {k : Nat} (s' : List Byte) (h : k ≤ s.length) :
    candidateStart (s ++ s') k = candidateStart s k := by
  induction k with
  | zero => rfl
  | succ k ih => rw [candidateStart_succ, candidateStart_succ, ih (by omega), List.getElem?_append_left (by omega)]

/-- What a position emits depends on the bytes up to it only. -/
theorem outputAt_append_left {s : List Byte} {k : Nat} (s' : List Byte) (h : k < s.length) :
    outputAt (s ++ s') k = outputAt s k := by
  rw [outputAt, outputAt, List.getElem?_append_left h, candidateStart_append_left s' h.le, slice_append_left s' _ h.le]

/-! ### The candidate under assembly -/

/-- The bytes since the last marker, or all of them: the candidate that `TracksStream` compares with (`BUF`, `LEN`). -/
def pending (bs : List Byte) : List Byte := slice bs (candidateStart bs bs.length) bs.length

theorem tracksStream_iff {bs : List Byte} {s : State} : TracksStream bs s ↔ Tracks (pending bs) s := Iff.rfl

theorem eventOfByte_marker : eventOfByte Config.startMarker = .mark := rfl

theorem eventOfByte_of_ne {b : Byte} (h : b ≠ Config.startMarker) : eventOfByte b = .data b := by
  simp [eventOfByte, isMarker, h]

theorem pending_snoc_marker (bs : List Byte) : pending (bs ++ [Config.startMarker]) = [Config.startMarker] := by
  rw [pending, List.length_append, List.length_singleton, candidateStart_succ, if_pos List.getElem?_concat_length,
    slice_eq_drop_take, List.take_of_length_le (by simp), List.drop_left]

theorem pending_snoc_of_ne {b : Byte} (bs : List Byte) (h : b ≠ Config.startMarker) : pending (bs ++ [b]) = pending bs ++ [b] := by
  have hb : (bs ++ [b])[bs.length]? ≠ some Config.startMarker := by simpa using h
  have hstart : candidateStart (bs ++ [b]) (bs ++ [b]).length = candidateStart bs bs.length := by
    rw [List.length_append, List.length_singleton, candidateStart_succ, if_neg hb, candidateStart_append_left _ le_rfl]
  rw [pending, hstart, slice_snoc b (candidateStart_le _ _), ← pending]

theorem outputAt_snoc (bs : List Byte) (b : Byte) :
    outputAt (bs ++ [b]) bs.length = if b = Config.startMarker then verdictOf (pending bs) else none := by
  simp only [outputAt, List.getElem?_concat_length, Option.some.injEq, candidateStart_append_left [b] le_rfl,
    slice_append_left [b] _ le_rfl, pending]

/-- The stream level is the source's algorithm: a byte does to the candidate and the output what its event does there. -/
theorem growableStep_pending (bs : List Byte) (b : Byte) :
    growableStep (pending bs) (eventOfByte b) = (pending (bs ++ [b]), outputAt (bs ++ [b]) bs.length) := by
  rw [outputAt_snoc]
  by_cases h : b = Config.startMarker
  · rw [h, eventOfByte_marker, growableStep_mark, pending_snoc_marker, if_pos rfl]
  · rw [eventOfByte_of_ne h, pending_snoc_of_ne bs h, if_neg h]
    rfl

theorem exec_of_tracksStream {bs : List Byte} {s : State} (b : Byte) (h : TracksStream bs s) :
    ∃ t, exec (eventOfByte b) s = .next t ∧ t.out = outputAt (bs ++ [b]) bs.length ∧ TracksStream (bs ++ [b]) t := by
  have hstep := exec_of_tracks (eventOfByte b) (tracksStream_iff.1 h)
  rwa [growableStep_pending] at hstep

/-- Settles O59: a stream byte is a step of the growable buffer that holds the candidate under assembly. -/
theorem everyByteKeepsTheStreamsCandidate : Obligations.EveryByteKeepsTheStreamsCandidate :=
  ⟨tracks_nil rfl, fun _ b _ => exec_of_tracksStream b⟩

/-! ### Whole streams -/

/-- A run over a stream from reset, by induction on its last byte. -/
theorem runEvents_stream (bs : List Byte) :
    ∃ t, runEvents (bs.map eventOfByte) State.reset = some (t, (List.range bs.length).map (outputAt bs)) ∧ TracksStream bs t := by
  induction bs using List.reverseRecOn with
  | nil => exact ⟨State.reset, rfl, tracks_nil rfl⟩
  | append_singleton bs b ih =>
    obtain ⟨u, hrun, hu⟩ := ih
    obtain ⟨t, ht, hout, htracks⟩ := exec_of_tracksStream b hu
    refine ⟨t, ?_, htracks⟩
    have hbefore : (List.range bs.length).map (outputAt (bs ++ [b])) = (List.range bs.length).map (outputAt bs) :=
      List.map_congr_left fun k hk => outputAt_append_left [b] (List.mem_range.1 hk)
    rw [List.map_append, List.map_singleton, runEvents_snoc_eq_some]
    refine ⟨u, _, hrun, ht, ?_⟩
    rw [List.length_append, List.length_singleton, List.range_succ, List.map_append, List.map_singleton, hbefore, hout]

/-- Settles O55. -/
theorem streamOutputsByPosition : Obligations.StreamOutputsByPosition := by
  intro bs
  obtain ⟨t, hrun, -⟩ := runEvents_stream bs
  exact ⟨t, _, hrun, rfl⟩

/-! ### The candidates of a stream -/

theorem filterMap_singleton_eq_toList {α β : Type} (f : α → Option β) (a : α) : [a].filterMap f = (f a).toList := by
  rw [List.filterMap_eq_flatMap_toList, List.flatMap_singleton]

theorem verdictsOf_singleton (o : Option Verdict) : verdictsOf [o] = o.toList := filterMap_singleton_eq_toList id o

/-- The markers before position `k`; `markerPositions` are those before the end. -/
def markersBefore (s : List Byte) (k : Nat) : List Nat := (List.range k).filter fun p => s[p]? == some Config.startMarker

theorem markersBefore_length (s : List Byte) : markersBefore s s.length = markerPositions s := rfl

theorem candidateStart_eq_getLastD (s : List Byte) (k : Nat) : candidateStart s k = (markersBefore s k).getLastD 0 := by
  rw [List.getLastD_eq_getLast?]
  rfl

theorem markersBefore_succ (s : List Byte) (k : Nat) :
    markersBefore s (k + 1) = if s[k]? = some Config.startMarker then markersBefore s k ++ [k] else markersBefore s k := by
  rw [markersBefore, List.range_succ, List.filter_append]
  split_ifs with h
  · simp [h, markersBefore]
  · simp [h, markersBefore]

/-- One more end of a segment: the last segment runs from the last mark to it. -/
theorem zipWith_cons_concat (f : Nat → Nat → List Byte) (a k : Nat) (l : List Nat) :
    List.zipWith f (a :: (l ++ [k])) (l ++ [k]) = List.zipWith f (a :: l) l ++ [f (l.getLastD a) k] := by
  induction l generalizing a with
  | nil => rfl
  | cons x l ih =>
    rw [List.cons_append, List.zipWith_cons_cons, ih, List.getLastD_cons]
    rfl

theorem outputAt_of_marker {s : List Byte} {k : Nat} (h : s[k]? = some Config.startMarker) :
    outputAt s k = verdictOf (slice s (candidateStart s k) k) := if_pos h

theorem outputAt_of_no_marker {s : List Byte} {k : Nat} (h : s[k]? ≠ some Config.startMarker) : outputAt s k = none := if_neg h

/-- The outputs up to a position are the verdicts of the segments that end before it. -/
theorem verdictsOf_outputAt (s : List Byte) (k : Nat) :
    verdictsOf ((List.range k).map (outputAt s)) =
      (List.zipWith (slice s) (0 :: markersBefore s k) (markersBefore s k)).filterMap verdictOf := by
  induction k with
  | zero => rfl
  | succ k ih =>
    rw [List.range_succ, List.map_append, verdictsOf_append, ih, markersBefore_succ]
    split_ifs with h
    · rw [zipWith_cons_concat, List.filterMap_append, ← candidateStart_eq_getLastD, List.map_singleton, outputAt_of_marker h,
        verdictsOf_singleton, filterMap_singleton_eq_toList]
    · rw [List.map_singleton, outputAt_of_no_marker h, verdictsOf_singleton, Option.toList_none, List.append_nil]

/-- An empty leading segment is no candidate, and would give no verdict. -/
theorem filterMap_verdictOf_candidates (s : List Byte) :
    (candidates s).filterMap verdictOf = (List.zipWith (slice s) (0 :: markerPositions s) (markerPositions s)).filterMap verdictOf := by
  unfold candidates leadingSegment
  cases markerPositions s with
  | nil => rfl
  | cons p ps =>
    obtain rfl | hp : p = 0 ∨ 0 < p := p.eq_zero_or_pos
    · rfl
    · simp only [List.head?_cons, if_pos hp]
      rfl

/-- The first marker of a stream. -/
theorem markerPositions_head?_eq_some {s : List Byte} {p : Nat} :
    (markerPositions s).head? = some p ↔ s[p]? = some Config.startMarker ∧ ∀ q < p, s[q]? ≠ some Config.startMarker := by
  rw [markerPositions, List.head?_filter, List.find?_range_eq_some]
  simp only [beq_iff_eq, List.mem_range, Bool.not_eq_true', beq_eq_false_iff_ne]
  constructor
  · rintro ⟨hp, -, hq⟩
    exact ⟨hp, hq⟩
  · rintro ⟨hp, hq⟩
    exact ⟨hp, (List.getElem?_eq_some_iff.1 hp).1, hq⟩

theorem frame_head_of_valid {f : Frame} (h : (validate f).ok = true) : f[0] = Config.startMarker := by
  obtain ⟨hmarker, -, -⟩ := (validate_ok_iff f).1 h
  exact (markerOk_iff f).1 hmarker

/-- The leading segment holds no marker, so it is never a valid frame. -/
theorem leadingSegment_not_valid (s : List Byte) : ((leadingSegment s).filterMap verdictOf).filter (·.ok) = [] := by
  rw [List.filter_eq_nil_iff]
  intro v hv hok
  obtain ⟨c, hc, hcv⟩ := List.mem_filterMap.1 hv
  obtain ⟨hframe, hjudged⟩ := verdictOf_eq_some.1 hcv
  unfold leadingSegment at hc
  split at hc
  case h_2 => cases hc
  case h_1 p hp =>
    split_ifs at hc with hpos
    case neg => cases hc
    case pos =>
      obtain ⟨-, hbefore⟩ := markerPositions_head?_eq_some.1 hp
      have hslice : v.frame.toList = slice s 0 p := hframe.trans (List.mem_singleton.1 hc)
      apply hbefore 0 hpos
      rw [head_of_toList_eq_slice hslice hpos, frame_head_of_valid (hjudged ▸ hok)]

/-- Of `m` markers at most `m - 1` close a valid frame (R88 (e)). -/
theorem length_valid_le (s : List Byte) :
    (((candidates s).filterMap verdictOf).filter (·.ok)).length ≤ (markerPositions s).length - 1 := by
  rw [candidates, List.filterMap_append, List.filter_append, leadingSegment_not_valid, List.nil_append]
  calc _ ≤ _ := List.length_filter_le _ _
    _ ≤ _ := List.length_filterMap_le _ _
    _ ≤ _ := by rw [List.length_zipWith, List.length_tail]; exact Nat.min_le_right _ _

/-- Settles O56: the verdicts are counted along the marker positions, each of which ends one segment. -/
theorem streamVerdictsAreThoseOfItsCandidates : Obligations.StreamVerdictsAreThoseOfItsCandidates := by
  intro bs
  obtain ⟨t, hrun, -⟩ := runEvents_stream bs
  have hverdicts := verdictsOf_outputAt bs bs.length
  rw [markersBefore_length] at hverdicts
  have hcandidates := hverdicts.trans (filterMap_verdictOf_candidates bs).symm
  refine ⟨t, _, hrun, hcandidates, fun hnone => ?_, ?_, ?_⟩
  · rw [hverdicts, hnone]
    rfl
  · rw [hverdicts]
    calc _ ≤ _ := List.length_filterMap_le _ _
      _ ≤ _ := by rw [List.length_zipWith]; exact Nat.min_le_right _ _
  · rw [hcandidates]
    exact length_valid_le bs

/-- A frame that is judged with a wrong marker is the leading segment, all of the 22 bytes before the first marker. -/
theorem outputAt_of_bad_marker {s : List Byte} {n : Nat} {v : Verdict} (hv : outputAt s n = some v)
    (hbad : v.frame[0] ≠ Config.startMarker) : (markerPositions s).head? = some n ∧ n = 22 := by
  have hmarker : s[n]? = some Config.startMarker := by
    by_contra h
    exact nomatch (outputAt_of_no_marker h).symm.trans hv
  rw [outputAt_of_marker hmarker] at hv
  obtain ⟨hframe, -⟩ := verdictOf_eq_some.1 hv
  rcases candidateStart_cases s n with ⟨hlt, hstart⟩ | ⟨h0, hnone⟩
  · have hhead := head_of_toList_eq_slice hframe hlt
    exact absurd (Option.some.inj (hhead.symm.trans hstart)) hbad
  · refine ⟨markerPositions_head?_eq_some.2 ⟨hmarker, hnone⟩, ?_⟩
    obtain ⟨hn, -⟩ := List.getElem?_eq_some_iff.1 hmarker
    have hlength := congrArg List.length hframe
    rw [h0, slice_eq_drop_take, List.drop_zero, List.length_take, Nat.min_eq_left hn.le] at hlength
    exact hlength.symm.trans v.frame.length_toList

/-- Settles O57: the outputs of the run are those of the positions. -/
theorem badMarkerOnlyForTheLeadingSegment : Obligations.BadMarkerOnlyForTheLeadingSegment := by
  intro bs t os n v hrun hv hbad
  obtain ⟨t', hrun', -⟩ := runEvents_stream bs
  obtain ⟨-, rfl⟩ := Prod.mk.inj (Option.some.inj (hrun.symm.trans hrun'))
  rw [List.getElem?_map] at hv
  obtain ⟨k, hk, hout⟩ := Option.map_eq_some_iff.1 hv
  obtain rfl : n = k := (List.getElem?_eq_some_iff.1 hk).2 ▸ (List.getElem_range _).symm
  exact outputAt_of_bad_marker hout hbad

end Sys2Proof.Machine
end

