-- ==== Sys2Proof/Proofs/EventEffects.lean ====
section
/-! Sys2Proof/Proofs/EventEffects.lean: what each event does to `LEN`, the phase and the bytes read, and leaves alone (10_state.md R30,
20_memory.md section 3, 40_synchronizer.md R90 to R92); that IDLE steps can be taken out of a run; and what a MARK forgets. -/

namespace Sys2Proof.Machine

/-! ### `LEN` -/

/-- A MARK appends the marker to an empty buffer, which lists no byte where MARK found a candidate. -/
theorem exec_mark_eq_append {s t : State} (h : exec .mark s = .next t) :
    ∃ u, t = append Config.startMarker u ∧ u.len.val = 0 ∧ u.input = s.input ∧ u.buf = if s.len.val = 0 then s.buf else [] := by
  rcases exec_next_cases h with ⟨hi, -⟩ | ⟨hi, -⟩ | ⟨hi, -⟩ | ⟨b, hi, -⟩ | ⟨-, h0, rfl⟩ | ⟨-, h0, -, rfl⟩ | ⟨-, h22, f, -, rfl⟩
  · cases hi
  · cases hi
  · cases hi
  · cases hi
  · have hlen : s.len.val = 0 := congrArg Fin.val h0
    exact ⟨_, rfl, hlen, rfl, (if_pos hlen).symm⟩
  · have hlen : s.len.val ≠ 0 := fun e => h0 (Fin.ext e)
    exact ⟨_, rfl, rfl, rfl, (if_neg hlen).symm⟩
  · have hlen : s.len.val ≠ 0 := by rw [h22]; decide
    exact ⟨_, rfl, rfl, rfl, (if_neg hlen).symm⟩

theorem exec_mark_starts_candidate {s t : State} (h : exec .mark s = .next t) : t.len.val = 1 ∧ readByte t 0 = .ok 0xFA#8 := by
  obtain ⟨u, rfl, hu, -⟩ := exec_mark_eq_append h
  exact append_to_empty _ hu

theorem exec_mark_len {s t : State} (h : exec .mark s = .next t) : t.len.val = 1 := (exec_mark_starts_candidate h).1

theorem append_len_val (b : Byte) (s : State) : (append b s).len.val = if s.len.val ≤ 22 then s.len.val + 1 else 23 := by
  have := s.len.isLt
  rw [append_len, lenSucc_val]
  split_ifs <;> omega

/-- Settles O8. -/
theorem lenAfterEachEvent : Obligations.LenAfterEachEvent := by
  refine ⟨fun s t h => ?reset, fun s t h => ?idle, fun b s t h => ?data, fun s t => exec_mark_len, fun s t h => ?eos⟩
  case reset => cases h; rfl
  case idle => cases h; rfl
  case data => cases h; exact append_len_val b (silent s)
  case eos => cases h; rfl

/-- No event makes a candidate longer by more than one byte. -/
theorem exec_len_le {i : Instr} {s t : State} (h : exec i s = .next t) : t.len.val ≤ s.len.val + 1 := by
  cases i with
  | mark => rw [exec_mark_len h]; omega
  | data b =>
    cases h
    rw [append_len_val, silent_len]
    split_ifs <;> omega
  | idle => cases h; exact Nat.le_succ _
  | reset => cases h; exact Nat.zero_le _
  | eos => cases h; exact Nat.zero_le _

/-! ### Phases and outputs -/

theorem exec_out_isSome_iff {i : Instr} {s t : State} (h : exec i s = .next t) : t.out.isSome ↔ i = .mark ∧ s.len.val = 22 := by
  rcases exec_report_cases h with ⟨hno, hout, -⟩ | ⟨-, -, h22, hout, -⟩ | ⟨hi, h22, f, -, hout, -⟩
  · have : ¬(i = .mark ∧ s.len.val = 22) := fun ⟨hi, h22⟩ => hno ⟨hi, by omega⟩
    simp [hout, this]
  · simp [hout, h22]
  · simp [hout, hi, h22]

theorem exec_out_eq_some {i : Instr} {s t : State} {v : Verdict} (h : exec i s = .next t) (hv : t.out = some v) :
    snapshot s = .ok v.frame ∧ v.ok = (validate v.frame).ok := by
  rcases exec_report_cases h with ⟨-, hout, -⟩ | ⟨-, -, -, hout, -⟩ | ⟨-, -, f, hf, hout, -⟩
  · exact nomatch hout.symm.trans hv
  · exact nomatch hout.symm.trans hv
  · obtain rfl := Option.some.inj (hout.symm.trans hv)
    exact ⟨hf, rfl⟩

/-- Settles O26. -/
theorem onlyMarkAtTwentyTwoEmits : Obligations.OnlyMarkAtTwentyTwoEmits :=
  fun _ _ _ h => ⟨exec_out_isSome_iff h, fun _ => exec_out_eq_some h⟩

theorem flush_mem_phasesInside_mark (s : State) : .flush ∈ phasesInside .mark s ↔ s.len.val ≠ 0 := by
  simp only [phasesInside, lenIsZero_iff, lenIsFull_iff]
  split_ifs <;> simp [*]

theorem validating_mem_phasesInside_mark (s : State) : .validating ∈ phasesInside .mark s ↔ s.len.val = 22 := by
  simp only [phasesInside, lenIsZero_iff, lenIsFull_iff]
  split_ifs <;> simp [*]

theorem phase_of_len_eq_zero {s : State} (h : s.len.val = 0) : s.phase = .seekingSync := if_pos (lenIsZero_iff.2 h)

theorem phase_of_len_ne_zero {s : State} (h : s.len.val ≠ 0) : s.phase = .accumulating := if_neg (mt lenIsZero_iff.1 h)

/-- Settles O9: the phase is a function of `LEN`; a MARK flushes what it finds, and validates 22 bytes. -/
theorem phaseTransitions : Obligations.PhaseTransitions := by
  refine ⟨fun s t h => ?reset, fun s t h => ?eos, fun s t h => ?idle, fun b s t h => ?data, fun s t h => ?mark,
    fun s t h => ?validating, fun s t h => ?flush⟩
  case reset => cases h; exact phase_of_len_eq_zero rfl
  case eos => cases h; exact phase_of_len_eq_zero rfl
  case idle => cases h; rfl
  case data => cases h; exact append_phase b _
  case mark => exact phase_of_len_ne_zero (by rw [exec_mark_len h]; decide)
  case validating => rw [validating_mem_phasesInside_mark, exec_out_isSome_iff h, eq_self, true_and]
  case flush => rw [flush_mem_phasesInside_mark, exec_cause_isSome_iff h, eq_self, true_and]

/-! ### What is left alone -/

/-- Settles O18: DATA is APPEND, which stores at `LEN` or nowhere. -/
theorem dataFrame : Obligations.DataFrame := by
  intro b s t h
  cases h
  refine ⟨rfl, fun a ha k hk => ?_, fun ha k => ?_, ?_⟩
  · simp only [appendOffset, Option.ite_none_right_eq_some, Option.some.injEq] at ha
    exact readByte_append_other b (silent s) (fun e => hk (e.trans ha.2))
  · have hfull : ¬s.len.val ≤ 21 := by simpa [appendOffset] using ha
    exact readByte_congr (by rw [append_buf, silent_len, if_neg hfull, silent_buf])
  · simp only [appendOffset, ite_eq_right_iff, reduceCtorEq, imp_false]
    omega

/-- Settles O19: RESET and EOS leave no byte, and a MARK appends to what it left of the buffer. -/
theorem clearingEventsFrame : Obligations.ClearingEventsFrame := by
  refine ⟨fun s t h => ⟨exec_input h, ?reset⟩, fun s t h => ⟨exec_input h, ?eos⟩, fun s t h => ?mark⟩
  case reset => cases h; exact readByte_clear_ne_ok _
  case eos => cases h; exact readByte_clear_ne_ok _
  case mark =>
    have hother : ∀ k, k ≠ 0 → ∃ u : State, readByte t k = readByte u k ∧ u.buf = if s.len.val = 0 then s.buf else [] := by
      obtain ⟨u, rfl, hu, -, hbuf⟩ := exec_mark_eq_append h
      exact fun k hk => ⟨u, readByte_append_other _ u (by rwa [hu]), hbuf⟩
    refine ⟨exec_input h, (exec_mark_starts_candidate h).2, fun h0 k b hk => ?_, fun h0 k hk => ?_⟩
    · obtain ⟨u, hread, hbuf⟩ := hother k hk
      rw [if_neg h0] at hbuf
      simp [hread, readByte_eq_ok, hbuf]
    · obtain ⟨u, hread, hbuf⟩ := hother k hk
      rw [if_pos h0] at hbuf
      exact hread.trans (readByte_congr (by rw [hbuf]))

/-! ### What a MARK forgets -/

/-- A MARK in a filled buffer appends the marker to the `BUF` and `LEN` of reset, whether it found a candidate or none. -/
theorem exec_mark_of_filled {s t : State} (hs : s.Filled) (h : exec .mark s = .next t) :
    State.SameCore t (append Config.startMarker State.reset) := by
  obtain ⟨u, rfl, hu, -, hbuf⟩ := exec_mark_eq_append h
  refine sameCore_append _ ⟨Fin.ext hu, hbuf.trans ?_⟩
  split_ifs with h0
  · exact buf_eq_nil_of_filled hs h0
  · rfl

/-- Settles O24. -/
theorem rejectionLeavesNoTraceInTheState : Obligations.RejectionLeavesNoTraceInTheState := by
  intro s s' t t' hs hs' h h'
  obtain ⟨hlen, hbuf⟩ := exec_mark_of_filled hs h
  obtain ⟨hlen', hbuf'⟩ := exec_mark_of_filled hs' h'
  exact ⟨hlen.trans hlen'.symm, hbuf.trans hbuf'.symm⟩

/-- Settles O53: the states after the marker have the same `BUF` and `LEN`, and a run depends on nothing else. -/
theorem framingHealsAtAMarker : Obligations.FramingHealsAtAMarker := by
  intro s s' t t' u u' is os os' hs hs' h h' hrun hrun'
  have hcore : State.SameCore t t' := rejectionLeavesNoTraceInTheState s s' t t' hs hs' h h'
  obtain ⟨v, hv, huv⟩ := runEvents_of_sameCore hcore hrun
  obtain ⟨rfl, rfl⟩ := Prod.mk.inj (Option.some.inj (hrun'.symm.trans hv))
  exact ⟨rfl, huv⟩

/-! ### Runs -/

/-- A verdict needs 22 bytes collected, and each step collects at most one. -/
theorem twentyTwo_le_of_verdict {is : List Instr} {s u : State} {os : List (Option Verdict)} {n : Nat} {v : Verdict}
    (h : runEvents is s = some (u, os)) (hv : os[n]? = some (some v)) : 22 ≤ s.len.val + n := by
  induction is generalizing s os n with
  | nil =>
    cases h
    cases hv
  | cons i is ih =>
    obtain ⟨t, os', ht, hrest, rfl⟩ := runEvents_cons_eq_some.1 h
    cases n with
    | zero =>
      obtain ⟨-, h22⟩ := (exec_out_isSome_iff ht).1 (by rw [Option.some.inj hv]; rfl)
      omega
    | succ n =>
      have hlen := exec_len_le ht
      have hrec := ih hrest hv
      omega

/-- Settles O54: a MARK leaves one byte. -/
theorem verdictsAreTwentyTwoStepsApart : Obligations.VerdictsAreTwentyTwoStepsApart := by
  intro s t u is os n v h hrun hv
  have hlen := exec_mark_len h
  have h22 := twentyTwo_le_of_verdict hrun hv
  omega

/-- Settles O15: by induction on the events; an IDLE changes neither `BUF` nor `LEN`, and a run depends on nothing else. -/
theorem idleStepsAreInvisible : Obligations.IdleStepsAreInvisible := by
  intro is
  induction is with
  | nil => exact fun s t os h => ⟨t, os, h, ⟨rfl, rfl⟩, rfl⟩
  | cons i is ih =>
    intro s t os h
    obtain ⟨u, os₁, hu, hrest, rfl⟩ := runEvents_cons_eq_some.1 h
    obtain ⟨t', os', hrun, htt', hverdicts⟩ := ih u t os₁ hrest
    by_cases hi : i = .idle
    · subst hi
      cases hu
      obtain ⟨t'', hrun', hlen, hbuf⟩ := runEvents_of_sameCore (s := silent s) (s' := s) ⟨rfl, rfl⟩ hrun
      exact ⟨t'', os', hrun', ⟨htt'.1.trans hlen, htt'.2.trans hbuf⟩, hverdicts⟩
    · refine ⟨t', u.out :: os', ?_, htt', ?_⟩
      · rw [List.filter_cons_of_pos (by simpa using hi)]
        exact runEvents_cons_eq_some.2 ⟨u, os', hu, hrun, rfl⟩
      · calc verdictsOf (u.out :: os') = verdictsOf [u.out] ++ verdictsOf os' := verdictsOf_append [u.out] os'
          _ = verdictsOf [u.out] ++ verdictsOf os₁ := by rw [hverdicts]
          _ = verdictsOf (u.out :: os₁) := (verdictsOf_append [u.out] os₁).symm

end Sys2Proof.Machine
end

