-- ==== Sys2Proof/Proofs/History.lean ====
section
/-! Sys2Proof/Proofs/History.lean: what the events since the last RESET or EOS say of the buffer (10_state.md R28 (I3) to (I5)). Each clause
holds of no events and is kept by one event more. -/

namespace Sys2Proof.Machine

/-- Where a RESET or EOS comes later, an event is forgotten; a RESET or EOS itself is forgotten too. -/
theorem sinceClear_cons (i : Instr) (is : List Instr) :
    sinceClear (i :: is) =
      if .reset ∈ is ∨ .eos ∈ is then sinceClear is else if i = .reset ∨ i = .eos then is else i :: is := rfl

/-- One event more: RESET and EOS begin a new history, and any other event is added to it. -/
theorem sinceClear_snoc (is : List Instr) (i : Instr) :
    sinceClear (is ++ [i]) = if i = .reset ∨ i = .eos then [] else sinceClear is ++ [i] := by
  induction is with
  | nil => simp [sinceClear_cons, sinceClear]
  | cons j is ih =>
    rw [List.cons_append, sinceClear_cons, sinceClear_cons, ih]
    by_cases hi : i = .reset ∨ i = .eos
    · have hlast : .reset ∈ is ++ [i] ∨ .eos ∈ is ++ [i] := by
        rcases hi with rfl | rfl <;> simp
      rw [if_pos hlast, if_pos hi, if_pos hi]
    · have hlast : (.reset ∈ is ++ [i] ∨ .eos ∈ is ++ [i]) ↔ .reset ∈ is ∨ .eos ∈ is := by
        rw [not_or] at hi
        simp [Ne.symm hi.1, Ne.symm hi.2]
      simp only [hlast, if_neg hi]
      split_ifs <;> rfl

/-! ### Bytes and outputs after one event more -/

/-- A byte read after APPEND is the one appended or was there. -/
theorem readByte_append_eq_ok {s : State} {b c : Byte} {k : Nat} (h : readByte (append b s) k = .ok c) :
    c = b ∨ readByte s k = .ok c := by
  by_cases hk : k = s.len.val
  · subst hk
    by_cases hlen : s.len.val ≤ 21
    · exact .inl (Except.ok.inj (h.symm.trans (readByte_append_same b hlen)))
    · refine .inr ((readByte_congr ?_).symm.trans h)
      rw [append_buf, if_neg hlen]
  · exact .inr ((readByte_append_other b s hk).symm.trans h)

/-- The outputs of the last events, one event more. -/
theorem verdictsOf_drop_snoc {hist : List Instr} {os : List (Option Verdict)} (i : Instr)
    (h : verdictsOf (os.drop (os.length - hist.length)) = []) :
    verdictsOf ((os ++ [none]).drop ((os ++ [none]).length - (hist ++ [i]).length)) = [] := by
  rw [List.length_append, List.length_singleton, List.length_append, List.length_singleton, Nat.add_sub_add_right,
    List.drop_append_of_le_length (Nat.sub_le _ _), verdictsOf_append, h]
  rfl

/-! ### The history of a run -/

/-- What the events `hist` since the last clear say of the buffer, and of their outputs, the last of `os`. -/
structure AgreesWithHistory (hist : List Instr) (t : State) (os : List (Option Verdict)) : Prop where
  marker_first : .mark ∈ hist → readByte t 0 = .ok 0xFA#8
  no_marker : .mark ∉ hist → ∀ k b, readByte t k = .ok b → b ≠ 0xFA#8
  no_verdict : .mark ∉ hist → verdictsOf (os.drop (os.length - hist.length)) = []
  len_eq_zero_iff : t.len.val = 0 ↔ ∀ i ∈ hist, i = .idle

/-- After a clear there is no history. -/
theorem agreesWithHistory_clear (s : State) (os : List (Option Verdict)) : AgreesWithHistory [] (clear s) os where
  marker_first h := nomatch h
  no_marker _ k b h := absurd h (readByte_clear_ne_ok s k b)
  no_verdict _ := by rw [List.length_nil, Nat.sub_zero, List.drop_length]; rfl
  len_eq_zero_iff := iff_of_true rfl fun i hi => (List.not_mem_nil hi).elim

section
variable {hist : List Instr} {s : State} {os : List (Option Verdict)} (h : AgreesWithHistory hist s os)
include h

theorem agreesWithHistory_idle : AgreesWithHistory (hist ++ [.idle]) (silent s) (os ++ [none]) where
  marker_first hm := h.marker_first (by simpa using hm)
  no_marker hm := h.no_marker (by simpa using hm)
  no_verdict hm := verdictsOf_drop_snoc _ (h.no_verdict (by simpa using hm))
  len_eq_zero_iff := by
    rw [silent_len, h.len_eq_zero_iff]
    simp [or_imp]

/-- A data byte goes after the marker, where there is one, and is no marker itself. -/
theorem agreesWithHistory_data {b : Byte} (hb : b ≠ Config.startMarker) :
    AgreesWithHistory (hist ++ [.data b]) (append b (silent s)) (os ++ [none]) where
  marker_first hm := by
    have hmark : .mark ∈ hist := by simpa using hm
    have hne : s.len.val ≠ 0 := fun h0 => nomatch h.len_eq_zero_iff.1 h0 _ hmark
    exact (readByte_append_other b (silent s) hne.symm).trans (h.marker_first hmark)
  no_marker hm k c hc := by
    rcases readByte_append_eq_ok hc with rfl | hc
    · exact hb
    · exact h.no_marker (by simpa using hm) k c hc
  no_verdict hm := verdictsOf_drop_snoc _ (h.no_verdict (by simpa using hm))
  len_eq_zero_iff := iff_of_false (append_len_val_ne_zero b _) fun hidle => by simpa using hidle (.data b) (by simp)

end

/-- A MARK in the history leaves nothing to say but that the marker is there. -/
theorem agreesWithHistory_mark {s t : State} (hist : List Instr) (os : List (Option Verdict)) (h : exec .mark s = .next t) :
    AgreesWithHistory (hist ++ [.mark]) t os where
  marker_first _ := (exec_mark_starts_candidate h).2
  no_marker hm := absurd (by simp) hm
  no_verdict hm := absurd (by simp) hm
  len_eq_zero_iff := iff_of_false (by rw [exec_mark_len h]; decide) fun hidle => by simpa using hidle .mark (by simp)

/-- A run from reset agrees with its history, by induction on its last event. -/
theorem agreesWithHistory_of_run {is : List Instr} {t : State} {os : List (Option Verdict)} (his : ∀ i ∈ is, i.WellFormed)
    (hrun : runEvents is State.reset = some (t, os)) : AgreesWithHistory (sinceClear is) t os := by
  induction is using List.reverseRecOn generalizing t os with
  | nil =>
    cases hrun
    exact agreesWithHistory_clear State.reset []
  | append_singleton is i ih =>
    obtain ⟨u, os, hu, ht, rfl⟩ := runEvents_snoc_eq_some.1 hrun
    have hbefore := ih (fun j hj => his j (List.mem_append_left _ hj)) hu
    rw [sinceClear_snoc]
    cases i with
    | reset => cases ht; exact agreesWithHistory_clear _ _
    | eos => cases ht; exact agreesWithHistory_clear _ _
    | idle => cases ht; exact agreesWithHistory_idle hbefore
    | data b => cases ht; exact agreesWithHistory_data hbefore (ne_marker_of_data_wellFormed (his _ (by simp)))
    | mark => exact agreesWithHistory_mark _ _ ht

/-- Settles O51. -/
theorem bufferByHistory : Obligations.BufferByHistory := by
  intro is t os his hrun
  have h := agreesWithHistory_of_run his hrun
  rw [← runEvents_length hrun]
  refine ⟨fun hm => ⟨?_, h.marker_first hm⟩, fun hm => ⟨h.no_marker hm, h.no_verdict hm⟩, h.len_eq_zero_iff⟩
  exact Nat.one_le_iff_ne_zero.2 fun h0 => nomatch h.len_eq_zero_iff.1 h0 _ hm

end Sys2Proof.Machine
end

