-- ==== Sys2Proof/Proofs/ChecksumArithmetic.lean ====
section
/-! Sys2Proof/Proofs/ChecksumArithmetic.lean: the checksum as arithmetic on the ten words (42_checksum.md R123 to R130). The accumulator of
every width is the sum of R123 modulo `2 ^ n`, and the reduction of every width is one formula on numbers, `foldSum`; what the widths,
the congruences and a changed byte do is then said of numbers alone. -/

namespace Sys2Proof.Machine

/-! ### The accumulator -/

/-- The words of a block, each with the weight that the folds after it give it (42_checksum.md R123). -/
def weightedSum (d : Block) : Nat := ∑ i : Fin 10, (wordAt d i).toNat * 2 ^ (9 - i.val)

/-- Shifts and adds over numbers, where no bit is lost. -/
theorem toNat_foldl_foldWord (n : Nat) (d : Block) (is : List (Fin 10)) :
    (is.foldl (fun cs i => foldWord cs (wordAt d i)) (0 : BitVec n)).toNat =
      is.foldl (fun cs i => 2 * cs + (wordAt d i).toNat) 0 % 2 ^ n := by
  induction is using List.reverseRecOn with
  | nil => simp
  | append_singleton is i ih =>
    rw [List.foldl_concat, List.foldl_concat, toNat_foldWord, ih, Nat.add_mod, Nat.mul_mod_mod, ← Nat.add_mod]

/-- The loop unrolled: each word is doubled once for every word after it. -/
theorem foldl_double_add_eq_weightedSum (d : Block) :
    (List.finRange 10).foldl (fun cs i => 2 * cs + (wordAt d i).toNat) 0 = weightedSum d := by
  simp [weightedSum, Fin.sum_univ_succ, List.finRange_succ]
  ring

/-- An accumulator of `n` bits holds the low `n` bits of the sum. -/
theorem toNat_accumulateOf (n : Nat) (d : Block) : (accumulateOf n d).toNat = weightedSum d % 2 ^ n := by
  rw [accumulateOf, toNat_foldl_foldWord, foldl_double_add_eq_weightedSum]

/-- No ten words sum to more than ten times `0xFFFF` do (42_checksum.md R124). -/
theorem weightedSum_le (d : Block) : weightedSum d ≤ 67042305 := by
  calc weightedSum d ≤ ∑ i : Fin 10, 0xFFFF * 2 ^ (9 - i.val) :=
        Finset.sum_le_sum fun i _ => Nat.mul_le_mul_right _ (Nat.le_of_lt_succ (wordAt d i).isLt)
    _ = 67042305 := by decide

/-- 26 bits hold the sum. -/
theorem toNat_accumulateOf_of_le {n : Nat} (h : 26 ≤ n) (d : Block) : (accumulateOf n d).toNat = weightedSum d := by
  rw [toNat_accumulateOf, Nat.mod_eq_of_lt]
  calc weightedSum d < 2 ^ 26 := (weightedSum_le d).trans_lt (by decide)
    _ ≤ 2 ^ n := Nat.pow_le_pow_right (by decide) h

/-- Settles O37: 32 bits hold the sum. -/
theorem accumulatorClosedForm : Obligations.AccumulatorClosedForm := toNat_accumulateOf_of_le (by decide)

/-! ### The reduction -/

/-- `(CS mod 2^15) + (CS div 2^15)`, the `g` of 42_checksum.md R128. -/
def foldSum (cs : Nat) : Nat := cs % 2 ^ 15 + cs / 2 ^ 15

/-- The mask keeps the low 15 bits, in an accumulator that has fewer as well. -/
theorem toNat_and_foldMask {n : Nat} (cs : BitVec n) : (cs &&& BitVec.ofNat n Config.foldMask).toNat = cs.toNat % 2 ^ 15 := by
  have hmask : cs.toNat &&& Config.foldMask = cs.toNat % 2 ^ 15 := Nat.and_two_pow_sub_one_eq_mod cs.toNat 15
  have hself : cs.toNat % 2 ^ n = cs.toNat := Nat.mod_eq_of_lt cs.isLt
  rw [BitVec.toNat_and, BitVec.toNat_ofNat]
  calc cs.toNat &&& Config.foldMask % 2 ^ n = (cs.toNat &&& Config.foldMask) % 2 ^ n := by rw [Nat.and_mod_two_pow, hself]
    _ = cs.toNat % 2 ^ 15 := by rw [hmask, Nat.mod_eq_of_lt ((Nat.mod_le _ _).trans_lt cs.isLt)]

theorem toNat_sum16Of {n : Nat} (cs : BitVec n) : (sum16Of cs).toNat = foldSum cs.toNat % 2 ^ 16 := by
  rw [sum16Of, BitVec.toNat_add, BitVec.toNat_setWidth, BitVec.toNat_setWidth, toNat_and_foldMask, BitVec.toNat_ushiftRight,
    Nat.shiftRight_eq_div_pow, ← Nat.add_mod]
  rfl

theorem toNat_reduce_eq_sum16 {n : Nat} (cs : BitVec n) : (reduce cs).toNat = (sum16Of cs).toNat % 2 ^ 15 := by
  rw [reduce, BitVec.toNat_setWidth, toNat_and_foldMask, Nat.mod_mod]

/-- The reduction of every width: 16 bits for the sum lose nothing that the second mask keeps. -/
theorem toNat_reduce {n : Nat} (cs : BitVec n) : (reduce cs).toNat = foldSum cs.toNat % 2 ^ 15 := by
  rw [toNat_reduce_eq_sum16, toNat_sum16Of, Nat.mod_mod_of_dvd _ (by decide)]

theorem toNat_checksumOf (n : Nat) (d : Block) : (checksumOf n d).toNat = foldSum (weightedSum d % 2 ^ n) % 2 ^ 15 := by
  rw [checksumOf, toNat_reduce, toNat_accumulateOf]

theorem toNat_checksumOf_of_le {n : Nat} (h : 26 ≤ n) (d : Block) : (checksumOf n d).toNat = foldSum (weightedSum d) % 2 ^ 15 := by
  rw [checksumOf, toNat_reduce, toNat_accumulateOf_of_le h]

theorem toNat_checksum (d : Block) : (checksum d).toNat = foldSum (weightedSum d) % 2 ^ 15 := toNat_checksumOf_of_le (by decide) d

/-- Within the bound of `CS` the sum of the two parts is less than twice `2 ^ 15` (42_checksum.md R125). -/
theorem foldSum_le {cs : Nat} (h : cs ≤ 67042305) : foldSum cs ≤ 34812 := by
  unfold foldSum
  omega

/-- Settles O39. -/
theorem reduceFoldsOnceAndMasksTwice : Obligations.ReduceFoldsOnceAndMasksTwice := by
  refine ⟨fun cs h => ?_, fun d => ⟨(toNat_accumulateOf_of_le (by decide) d).trans_le (weightedSum_le d), rfl⟩⟩
  have hle := foldSum_le h
  have hsum : (sum16Of cs).toNat = foldSum cs.toNat := by rw [toNat_sum16Of, Nat.mod_eq_of_lt (by omega)]
  exact ⟨hsum, hsum.trans_le hle, toNat_reduce_eq_sum16 cs, Nat.le_of_lt_succ (reduce cs).isLt⟩

/-! ### Widths and corner cases -/

theorem weightedSum_replicate_FF : weightedSum (Vector.replicate 20 0xFF) = 67042305 := by decide

/-- All bytes `0xFF` need 26 bits: with fewer, the folded sum that is left differs by less than `2 ^ 15`. -/
theorem foldSum_truncated_ne {n : Nat} (h : n < 26) : foldSum (67042305 % 2 ^ n) % 2 ^ 15 ≠ foldSum 67042305 % 2 ^ 15 := by
  revert h n
  decide

/-- Settles O38: 26 bits hold the bound; below, the block of bytes `0xFF` is a witness. -/
theorem twentySixBitsSuffice : Obligations.TwentySixBitsSuffice := by
  refine ⟨fun d => ?_, fun n d h => ⟨?_, BitVec.eq_of_toNat_eq ?_⟩, fun n h => ⟨Vector.replicate 20 0xFF, fun heq => ?_⟩⟩
  · rw [toNat_accumulateOf_of_le (by decide)]
    exact weightedSum_le d
  · rw [toNat_accumulateOf_of_le h, toNat_accumulateOf_of_le (by decide)]
  · rw [toNat_checksumOf_of_le h, toNat_checksum]
  · have hnat := congrArg BitVec.toNat heq
    rw [toNat_checksumOf, toNat_checksum, weightedSum_replicate_FF] at hnat
    exact foldSum_truncated_ne h hnat

/-- The sum of R123 with each word written as its two bytes. -/
theorem weightedSum_eq_bytes (d : Block) :
    weightedSum d = ∑ i : Fin 10, (d[2 * i.val].toNat + 256 * d[2 * i.val + 1].toNat) * 2 ^ (9 - i.val) := by
  simp only [weightedSum, wordAt_eq, toNat_littleEndian]

theorem weightedSum_replicate_zero : weightedSum (Vector.replicate 20 0) = 0 := by decide

/-- Settles O40: the formula, and its value at the two corners. -/
theorem checksumOfTheTenWords : Obligations.ChecksumOfTheTenWords := by
  refine ⟨fun d => ?_, ?_, ?_, ?_, ?_⟩
  · rw [toNat_checksum, weightedSum_eq_bytes]
    rfl
  · exact BitVec.eq_of_toNat_eq (by rw [toNat_accumulateOf, weightedSum_replicate_zero]; rfl)
  · exact BitVec.eq_of_toNat_eq (by rw [toNat_checksum, weightedSum_replicate_zero]; rfl)
  · exact BitVec.eq_of_toNat_eq (by rw [toNat_checksum, weightedSum_replicate_FF]; rfl)
  · exact BitVec.eq_of_toNat_eq (by rw [toNat_accumulateOf, weightedSum_replicate_FF]; rfl)

/-- `2 ^ 15` is 1 modulo 32767, so what the fold takes off is a multiple of 32767 (42_checksum.md R128). -/
theorem foldSum_add (cs : Nat) : foldSum cs + 32767 * (cs / 2 ^ 15) = cs := by
  unfold foldSum
  omega

theorem foldSum_mod_eq (cs : Nat) : foldSum cs % 32767 = cs % 32767 := by
  conv_rhs => rw [← foldSum_add cs, Nat.add_mul_mod_self_left]

/-- Settles O41: the second mask takes `2 ^ 15` off where the addition carries, and leaves the sum as it is where not. -/
theorem checksumCongruence : Obligations.ChecksumCongruence := by
  intro d
  rw [toNat_accumulateOf_of_le (by decide), toNat_checksum]
  change foldSum (weightedSum d) % 32767 = weightedSum d % 32767 ∧ (foldSum (weightedSum d) < 0x8000 → _) ∧
    (0x8000 ≤ foldSum (weightedSum d) → _ = foldSum (weightedSum d) ∧ _)
  have hle := foldSum_le (weightedSum_le d)
  have hmod := foldSum_mod_eq (weightedSum d)
  refine ⟨hmod, fun hlt => ?_, fun hge => ?_⟩
  · rw [Nat.mod_eq_of_lt (by omega)]
    exact ⟨rfl, hmod⟩
  · omega

/-! ### Error detection -/

/-- Two sums that fold to one checksum differ by a multiple of 32767, or by one more than such a multiple (42_checksum.md R130). -/
theorem sub_of_foldSum_eq {a b : Nat} (ha : a ≤ 67042305) (hab : b < a) (h : foldSum a % 2 ^ 15 = foldSum b % 2 ^ 15) :
    ∃ m, a = b + 32767 * m ∨ (2 ≤ m ∧ m ≤ 2046 ∧ a = b + (32767 * m + 1)) := by
  have hga := foldSum_le ha
  have hgb := foldSum_le (hab.le.trans ha)
  have hcarry : foldSum a = foldSum b ∨ foldSum a = foldSum b + 2 ^ 15 ∨ foldSum a + 2 ^ 15 = foldSum b := by omega
  unfold foldSum at hcarry
  rcases hcarry with hc | hc | hc
  · exact ⟨a / 2 ^ 15 - b / 2 ^ 15, .inl (by omega)⟩
  · exact ⟨a / 2 ^ 15 - b / 2 ^ 15 + 1, .inr ⟨by omega, by omega, by omega⟩⟩
  · omega

/-- 32767 is odd, so no byte shifted is a multiple of it. -/
theorem byte_mul_two_pow_ne_mul {x : Nat} (s m : Nat) (hx : 0 < x) (hx' : x < 256) : x * 2 ^ s ≠ 32767 * m := by
  intro h
  have hodd : Nat.Coprime 32767 (2 ^ s) := Nat.Coprime.pow_right s (by decide)
  have hle := Nat.le_of_dvd hx (hodd.dvd_of_dvd_mul_right ⟨m, h⟩)
  omega

/-- Nor is it one more than a multiple: with `2 ^ 15 * m = x * 2 ^ s + (m - 1)`, the lesser of `2 ^ s` and `2 ^ 15` divides `m - 1`, which
is too small for it. -/
theorem byte_mul_two_pow_ne_mul_add_one {x m : Nat} (s : Nat) (hx : x < 256) (hm : 2 ≤ m) (hm' : m ≤ 2046) :
    x * 2 ^ s ≠ 32767 * m + 1 := by
  intro h
  have hsum : x * 2 ^ s + (m - 1) = 2 ^ 15 * m := by omega
  obtain hs | hs : 15 ≤ s ∨ s ≤ 15 := Nat.le_total _ _
  · have hdvd : 2 ^ 15 ∣ m - 1 := (Nat.dvd_add_right ((pow_dvd_pow 2 hs).mul_left x)).1 ⟨m, hsum⟩
    have hle := Nat.le_of_dvd (by omega) hdvd
    omega
  · have hdvd : 2 ^ s ∣ m - 1 := (Nat.dvd_add_right (Nat.dvd_mul_left _ x)).1 (hsum ▸ (pow_dvd_pow 2 hs).mul_right m)
    have hle : x * 2 ^ s ≤ 255 * (m - 1) := Nat.mul_le_mul (Nat.le_of_lt_succ hx) (Nat.le_of_dvd (by omega) hdvd)
    omega

theorem foldSum_ne_of_lt {a b x s : Nat} (ha : a ≤ 67042305) (hx : 0 < x) (hx' : x < 256) (hab : a = b + x * 2 ^ s) :
    foldSum a % 2 ^ 15 ≠ foldSum b % 2 ^ 15 := by
  intro h
  have hpos : 0 < x * 2 ^ s := Nat.mul_pos hx (Nat.two_pow_pos s)
  obtain ⟨m, hm | ⟨h2, h2046, hm⟩⟩ := sub_of_foldSum_eq ha (by omega) h
  · exact byte_mul_two_pow_ne_mul s m hx hx' (by omega)
  · exact byte_mul_two_pow_ne_mul_add_one s hx' h2 h2046 (by omega)

/-- Two sums that differ by two bytes at one weight: the larger of them is the other and a byte shifted. -/
theorem foldSum_ne_of_bytes {a b s : Nat} {x y : Byte} (ha : a ≤ 67042305) (hb : b ≤ 67042305) (hxy : x ≠ y)
    (h : a + x.toNat * 2 ^ s = b + y.toNat * 2 ^ s) : foldSum a % 2 ^ 15 ≠ foldSum b % 2 ^ 15 := by
  rcases Nat.lt_or_gt_of_ne (mt BitVec.eq_of_toNat_eq hxy) with hlt | hlt
  · obtain ⟨z, hz⟩ := Nat.exists_eq_add_of_le hlt.le
    rw [hz, add_mul] at h
    exact foldSum_ne_of_lt (x := z) (s := s) ha (by omega) (by omega) (by omega)
  · obtain ⟨z, hz⟩ := Nat.exists_eq_add_of_le hlt.le
    rw [hz, add_mul] at h
    exact (foldSum_ne_of_lt (x := z) (s := s) hb (by omega) (by omega) (by omega)).symm

/-- Two blocks that differ in word `i` only. -/
theorem weightedSum_add_of_words_eq {d d' : Block} (i : Fin 10) (h : ∀ j, j ≠ i → wordAt d' j = wordAt d j) :
    weightedSum d' + (wordAt d i).toNat * 2 ^ (9 - i.val) = weightedSum d + (wordAt d' i).toNat * 2 ^ (9 - i.val) := by
  have hothers : ∑ j ∈ {i}ᶜ, (wordAt d' j).toNat * 2 ^ (9 - j.val) = ∑ j ∈ {i}ᶜ, (wordAt d j).toNat * 2 ^ (9 - j.val) :=
    Finset.sum_congr rfl fun j hj => by rw [h j (by simpa using hj)]
  rw [weightedSum, weightedSum, Fintype.sum_eq_add_sum_compl i, Fintype.sum_eq_add_sum_compl i, hothers]
  omega

/-- A byte counts in the sum with one power of two, the weight of its word or 256 times that. -/
theorem weightedSum_set (d : Block) {k : Nat} (hk : k < 20) (v : Byte) :
    ∃ s, weightedSum (d.set k v) + d[k].toNat * 2 ^ s = weightedSum d + v.toNat * 2 ^ s := by
  have hwords (i : Fin 10) (hi : k / 2 = i.val) := weightedSum_add_of_words_eq (d := d) (d' := d.set k v) i fun j hj => by
    have hne : j.val ≠ i.val := fun e => hj (Fin.ext e)
    rw [wordAt_eq, wordAt_eq, Vector.getElem_set_ne _ _ (by omega), Vector.getElem_set_ne _ _ (by omega)]
  obtain ⟨i, rfl | rfl⟩ : ∃ i, k = 2 * i ∨ k = 2 * i + 1 := ⟨k / 2, by omega⟩
  · refine ⟨9 - i, ?_⟩
    have hword := hwords ⟨i, by omega⟩ (by simp)
    simp only [wordAt_eq, toNat_littleEndian, Vector.getElem_set_self, Vector.getElem_set_ne _ _ (show 2 * i ≠ 2 * i + 1 by omega),
      add_mul] at hword
    omega
  · refine ⟨8 + (9 - i), ?_⟩
    have hword := hwords ⟨i, by omega⟩ (by simp; omega)
    simp only [wordAt_eq, toNat_littleEndian, Vector.getElem_set_self, Vector.getElem_set_ne _ _ (show 2 * i + 1 ≠ 2 * i by omega),
      add_mul] at hword
    rw [pow_add]
    linarith

/-- Settles O42: the sums differ by two bytes at one weight, and the fold shows every such difference. -/
theorem anyOneByteChangesTheChecksum : Obligations.AnyOneByteChangesTheChecksum := by
  intro d k v hv heq
  have hchk := congrArg BitVec.toNat heq
  rw [toNat_checksum, toNat_checksum] at hchk
  obtain ⟨s, hsum⟩ := weightedSum_set d k.isLt v
  exact foldSum_ne_of_bytes (weightedSum_le _) (weightedSum_le _) (Ne.symm hv) hsum hchk

end Sys2Proof.Machine
end

