-- ==== Sys2Proof/Proofs/FrameChecks.lean ====
section
/-! Sys2Proof/Proofs/FrameChecks.lean: what the comparison of the checksum with the stored word says of a frame (41_validator.md R108,
30_encoding.md R70 (b), 42_checksum.md R130). Both are numbers, and the checksum is below `2 ^ 15`. -/

namespace Sys2Proof.Machine

/-- A stored word with bit 15 set is no checksum (41_validator.md R108). -/
theorem checksumOk_eq_false_of_bitFifteen {f : Frame} (h : 0x80 ≤ f[21].toNat) : ¬checksumOk f = true := by
  rw [checksumOk_iff]
  have hlt := (checksum (blockOf f)).isLt
  omega

/-- Settles O32: the last check cannot pass, and it decides the cause where the first two do. -/
theorem storedBitFifteenIsNeverValid : Obligations.StoredBitFifteenIsNeverValid := by
  intro f h
  have hc := checksumOk_eq_false_of_bitFifteen h
  refine ⟨?_, fun hm hi => ?_⟩
  · rw [← Bool.not_eq_true, validate_ok_iff]
    exact fun ⟨_, _, hok⟩ => hc hok
  · rw [(validate_eq_checksumMismatch_iff f).2 ⟨(markerOk_iff f).2 hm, (indexOk_iff f).2 hi, hc⟩]

/-! ### `FRAME(idx; payload)` -/

/-- The 20 bytes in front of the checksum of a frame literal. -/
def literalBlock (idx : Byte) (p : Vector Byte 18) : Block := #v[Config.startMarker, idx] ++ p

theorem frameLiteral_eq (idx : Byte) (p : Vector Byte 18) :
    frameLiteral idx p =
      literalBlock idx p ++ #v[(checksum (literalBlock idx p)).setWidth 8, (checksum (literalBlock idx p) >>> 8).setWidth 8] := rfl

theorem frameLiteral_getElem (idx : Byte) (p : Vector Byte 18) {k : Nat} (h : k < 20) :
    (frameLiteral idx p)[k] = (literalBlock idx p)[k] := by
  simp only [frameLiteral_eq]
  exact Vector.getElem_append_left h

theorem frameLiteral_marker (idx : Byte) (p : Vector Byte 18) : (frameLiteral idx p)[0] = 0xFA#8 :=
  (frameLiteral_getElem idx p (by decide)).trans (Vector.getElem_append_left (by decide))

theorem frameLiteral_index (idx : Byte) (p : Vector Byte 18) : (frameLiteral idx p)[1] = idx :=
  (frameLiteral_getElem idx p (by decide)).trans (Vector.getElem_append_left (by decide))

theorem frameLiteral_payload (idx : Byte) (p : Vector Byte 18) {k : Nat} (h : k < 18) : (frameLiteral idx p)[k + 2] = p[k] :=
  (frameLiteral_getElem idx p (by omega)).trans ((Vector.getElem_append_right (by omega) (by omega)).trans (by simp))

theorem frameLiteral_stored_low (idx : Byte) (p : Vector Byte 18) :
    (frameLiteral idx p)[20] = (checksum (literalBlock idx p)).setWidth 8 :=
  Vector.getElem_append_right (by decide) (by decide)

theorem frameLiteral_stored_high (idx : Byte) (p : Vector Byte 18) :
    (frameLiteral idx p)[21] = (checksum (literalBlock idx p) >>> 8).setWidth 8 :=
  Vector.getElem_append_right (by decide) (by decide)

theorem blockOf_frameLiteral (idx : Byte) (p : Vector Byte 18) : blockOf (frameLiteral idx p) = literalBlock idx p := by
  ext k hk
  rw [blockOf_getElem, frameLiteral_getElem idx p hk]

theorem checksumOk_frameLiteral (idx : Byte) (p : Vector Byte 18) : checksumOk (frameLiteral idx p) = true := by
  have hlt := (checksum (literalBlock idx p)).isLt
  rw [checksumOk_iff, blockOf_frameLiteral, frameLiteral_stored_low, frameLiteral_stored_high, BitVec.toNat_setWidth,
    BitVec.toNat_setWidth, BitVec.toNat_ushiftRight, Nat.shiftRight_eq_div_pow]
  omega

/-- Settles O33: marker and checksum are in order by construction, so the index decides. -/
theorem frameLiteralIsValidForIndexInRange : Obligations.FrameLiteralIsValidForIndexInRange := by
  refine fun idx p => ⟨?_, fun k => frameLiteral_payload idx p k.isLt, frameLiteral_marker idx p, frameLiteral_index idx p⟩
  rw [validate_ok_iff, markerOk_iff, indexOk_iff, frameLiteral_index]
  simp [frameLiteral_marker, checksumOk_frameLiteral]

/-! ### Error detection -/

/-- Replacing a byte that the checksum covers changes the checksum and not the stored word. -/
theorem not_checksumOk_set_of_lt {f : Frame} {k : Nat} {v : Byte} (hf : checksumOk f = true) (hk : k < 20) (hv : v ≠ f[k]) :
    ¬checksumOk (f.set k v) = true := by
  have hblock : blockOf (f.set k v) = (blockOf f).set k v := by
    ext i hi
    rw [blockOf_getElem, Vector.getElem_set, Vector.getElem_set, blockOf_getElem]
  have hne := anyOneByteChangesTheChecksum (blockOf f) ⟨k, hk⟩ v (by simpa using hv)
  intro hok
  rw [checksumOk_iff] at hf hok
  rw [hblock, Vector.getElem_set_ne _ _ (by omega), Vector.getElem_set_ne _ _ (by omega), ← hf] at hok
  exact hne (BitVec.eq_of_toNat_eq hok)

/-- Replacing a byte of the stored word changes its number and not the checksum. -/
theorem not_checksumOk_set_of_le {f : Frame} {k : Nat} {v : Byte} (hf : checksumOk f = true) (hk : k < 22) (h20 : 20 ≤ k)
    (hv : v ≠ f[k]) : ¬checksumOk (f.set k v) = true := by
  have hv' : v.toNat ≠ f[k].toNat := mt BitVec.eq_of_toNat_eq hv
  intro hok
  rw [checksumOk_iff] at hf hok
  rw [blockOf_set_of_le hk v h20, hf] at hok
  obtain rfl | rfl : k = 20 ∨ k = 21 := by omega
  · rw [Vector.getElem_set_self, Vector.getElem_set_ne _ _ (by omega)] at hok
    omega
  · rw [Vector.getElem_set_self, Vector.getElem_set_ne _ _ (by omega)] at hok
    omega

/-- Settles O34: wherever the byte is, the checksum check fails after the change. -/
theorem anyOneByteChangeInvalidatesAFrame : Obligations.AnyOneByteChangeInvalidatesAFrame := by
  intro f k v hf hv
  obtain ⟨-, -, hc⟩ := (validate_ok_iff f).1 hf
  rw [← Bool.not_eq_true, validate_ok_iff]
  rintro ⟨-, -, hok⟩
  obtain hk | hk := Nat.lt_or_ge k.val 20
  · exact not_checksumOk_set_of_lt hc hk hv hok
  · exact not_checksumOk_set_of_le hc k.isLt hk hv hok

end Sys2Proof.Machine
end

