-- ==== Sys2Proof/Proofs/Packing.lean ====
section
/-! Sys2Proof/Proofs/Packing.lean: a frame on 176 wires (30_encoding.md R63, R67, R72), bit by bit: bit `i` of the packing is bit `i % 8`
of byte `i / 8`, and a field is the little-endian word of two neighbouring slices. -/

namespace Sys2Proof.Machine

/-! ### Packing -/

/-- A byte put at offset `k` of the wires. -/
theorem getLsbD_byte_at_offset (b : Byte) (k : Nat) {i : Nat} (hi : i < 176) :
    (b.setWidth 176 <<< (8 * k)).getLsbD i = (decide (8 * k ≤ i) && b.getLsbD (i - 8 * k)) := by
  rw [BitVec.getLsbD_shiftLeft, BitVec.getLsbD_setWidth]
  simp only [hi, show i - 8 * k < 176 by omega, decide_true, Bool.true_and, ← decide_not, Nat.not_lt]

/-- A bit of the wires after the bytes at the offsets `ks` were put on them. -/
theorem getLsbD_foldl_pack (f : Frame) (ks : List (Fin 22)) (F : BitVec 176) {i : Nat} (hi : i < 176) :
    (ks.foldl (fun (F : BitVec 176) (k : Fin 22) => F ||| (f[k.val].setWidth 176 <<< (8 * k.val))) F).getLsbD i =
      (F.getLsbD i || ks.any fun k => decide (8 * k.val ≤ i) && f[k.val].getLsbD (i - 8 * k.val)) := by
  induction ks generalizing F with
  | nil => simp
  | cons k ks ih =>
    rw [List.foldl_cons, ih, List.any_cons, ← Bool.or_assoc, BitVec.getLsbD_or, getLsbD_byte_at_offset _ _ hi]

/-- Only the byte at offset `i / 8` reaches wire `i`. -/
theorem getLsbD_packFrame (f : Frame) {i : Nat} (hi : i < 176) :
    (packFrame f).getLsbD i = (f[i / 8]'(by omega)).getLsbD (i % 8) := by
  rw [packFrame, getLsbD_foldl_pack f _ _ hi, show (0 : BitVec 176).getLsbD i = false from BitVec.getLsbD_zero, Bool.false_or,
    Bool.eq_iff_iff, List.any_eq_true]
  simp only [Bool.and_eq_true, decide_eq_true_eq]
  constructor
  · rintro ⟨k, -, hle, hbit⟩
    have hlt := BitVec.lt_of_getLsbD hbit
    have hk : i / 8 = k.val := by omega
    have hmod : i % 8 = i - 8 * k.val := by omega
    simpa only [hk, hmod] using hbit
  · intro hbit
    refine ⟨⟨i / 8, by omega⟩, List.mem_finRange _, by simp only; omega, ?_⟩
    rwa [show i - 8 * (i / 8) = i % 8 by omega]

theorem getLsbD_unpackFrame (F : BitVec 176) {k : Nat} (hk : k < 22) (i : Nat) :
    (unpackFrame F)[k].getLsbD i = (decide (i < 8) && F.getLsbD (8 * k + i)) := by
  rw [unpackFrame_getElem F k hk, BitVec.getLsbD_extractLsb']

theorem unpackFrame_packFrame (f : Frame) : unpackFrame (packFrame f) = f := by
  ext1 k hk
  apply BitVec.eq_of_getLsbD_eq
  intro i hi
  rw [getLsbD_unpackFrame _ hk, getLsbD_packFrame f (by omega)]
  simp only [hi, decide_true, Bool.true_and, show (8 * k + i) / 8 = k by omega, show (8 * k + i) % 8 = i by omega]

theorem packFrame_unpackFrame (F : BitVec 176) : packFrame (unpackFrame F) = F := by
  apply BitVec.eq_of_getLsbD_eq
  intro i hi
  rw [getLsbD_packFrame _ hi, getLsbD_unpackFrame]
  simp only [show i % 8 < 8 by omega, decide_true, Bool.true_and, Nat.div_add_mod]

/-! ### Fields -/

/-- A bit of a little-endian word is one of its low or of its high byte. -/
theorem getLsbD_littleEndian (lo hi : Byte) {i : Nat} (h : i < 16) :
    (littleEndian lo hi).getLsbD i = if i < 8 then lo.getLsbD i else hi.getLsbD (i - 8) := by
  rw [littleEndian, BitVec.getLsbD_or, BitVec.getLsbD_shiftLeft, BitVec.getLsbD_setWidth, BitVec.getLsbD_setWidth]
  split_ifs with h8
  · simp [h, h8]
  · simp [h, h8, BitVec.getLsbD_of_ge lo i (by omega), show i - 8 < 16 by omega]

/-- Two neighbouring slices of eight wires are a little-endian slice of sixteen. -/
theorem littleEndian_extractLsb' {n : Nat} (F : BitVec n) (a : Nat) :
    littleEndian (F.extractLsb' a 8) (F.extractLsb' (a + 8) 8) = F.extractLsb' a 16 := by
  apply BitVec.eq_of_getLsbD_eq
  intro i hi
  rw [getLsbD_littleEndian _ _ hi, BitVec.getLsbD_extractLsb', BitVec.getLsbD_extractLsb', BitVec.getLsbD_extractLsb']
  split_ifs with h8
  · simp only [hi, h8]
  · simp only [hi, show i - 8 < 8 by omega, show a + 8 + (i - 8) = a + i by omega]

/-- A field of two bytes is a slice of the wires. -/
theorem littleEndian_unpackFrame (F : BitVec 176) {k : Nat} (hk : k + 1 < 22) :
    littleEndian (unpackFrame F)[k] (unpackFrame F)[k + 1] = F.extractLsb' (8 * k) 16 := by
  rw [unpackFrame_getElem, unpackFrame_getElem, Nat.mul_succ, littleEndian_extractLsb']

theorem wordAt_unpackFrame (F : BitVec 176) (i : Fin 10) : wordAt (blockOf (unpackFrame F)) i = F.extractLsb' (16 * i.val) 16 := by
  rw [wordAt_eq, blockOf_getElem, blockOf_getElem, littleEndian_unpackFrame F (by omega), ← Nat.mul_assoc]

theorem sampleOf_unpackFrame (F : BitVec 176) (j : Fin 8) : sampleOf (unpackFrame F) j = F.extractLsb' (32 + 16 * j.val) 16 := by
  have hoffset : 32 + 16 * j.val = 8 * (4 + 2 * j.val) := by omega
  have hnext : 5 + 2 * j.val = 4 + 2 * j.val + 1 := by omega
  simp only [sampleOf, hnext, hoffset]
  exact littleEndian_unpackFrame F (by omega)

/-- The first 160 wires are the bytes that the checksum covers (R72). -/
theorem unpackBlock_extractLsb' (F : BitVec 176) : unpackBlock (F.extractLsb' 0 160) = blockOf (unpackFrame F) := by
  ext1 k hk
  rw [blockOf_getElem, unpackBlock, Vector.getElem_ofFn]
  apply BitVec.eq_of_getLsbD_eq
  intro i hi
  rw [getLsbD_unpackFrame F (by omega), BitVec.getLsbD_extractLsb', BitVec.getLsbD_extractLsb']
  simp only [show 8 * k + i < 160 by omega, decide_true, Bool.true_and, Nat.zero_add]

/-- Settles O45: packing and unpacking undo each other bit by bit, and the blocks unpack what they are given. -/
theorem framePackingIsFaithful : Obligations.FramePackingIsFaithful := by
  refine ⟨unpackFrame_packFrame, packFrame_unpackFrame, fun F k => unpackFrame_getElem F k.val k.isLt, wordAt_unpackFrame,
    sampleOf_unpackFrame, fun F => ⟨littleEndian_unpackFrame F (by decide), littleEndian_unpackFrame F (by decide)⟩, fun f => ?_,
    fun F => ?_⟩
  · rw [validateBlock, unpackFrame_packFrame]
  · rw [checksumBlock, unpackBlock_extractLsb']

/-! ### The output pins -/

theorem outPins_outValid (n : Nat) (o : Option Verdict) : (outPins n o).outValid = o.isSome := by
  cases o <;> rfl

/-- Settles O46: with no latency the pins of a cycle are those of its step. -/
theorem outputPinsCarryTheVerdict : Obligations.OutputPinsCarryTheVerdict := by
  intro ps s t os hrun
  refine ⟨os.mapIdx outPins, ?_, List.length_mapIdx, fun n q o hq ho => ?_⟩
  · rw [runPins, hrun]
    rfl
  · rw [List.getElem?_mapIdx, ho] at hq
    obtain rfl := Option.some.inj hq
    refine ⟨outPins_outValid n o, ?_⟩
    rintro v rfl
    exact ⟨rfl, unpackFrame_packFrame v.frame⟩

end Sys2Proof.Machine
end
